-- ==== Sys2Proof/Word.lean ====
section
/-! DEFINITION. The word types of the machine: what the spec treats as bits, each at its one width
(spec/00_scope.md R6, R8, R9; spec/30_encoding.md R71). -/

namespace Sys2Proof

/-- A byte: a RAM cell, a general register, a timer (R6: XLEN = 8 bits). -/
abbrev Byte := BitVec 8

/-- A 16-bit word: an instruction word, `pc`, `I`, a return address (R6). -/
abbrev Word := BitVec 16

/-- The 12-bit address field `NNN` (R71). -/
abbrev Addr12 := BitVec 12

/-- A 4-bit field of an instruction word, such as the row count `N` (R71). -/
abbrev Nibble := BitVec 4

/-- A general-register index 0..15, "always in range of the 16-entry register file" (R73). -/
abbrev Reg := Fin 16

end Sys2Proof
end

