-- ==== Sys2Proof/Syntax.lean ====
section
/-! DEFINITION. The tagged instructions: exactly the 35 variants of spec/30_encoding.md R88, one constructor per row of
spec/opcode_table.json, with the operand fields of R71. -/

namespace Sys2Proof

/-- The decoder's output (R88): 34 instructions and the explicit unknown/data variant carrying the raw word. -/
inductive Instr where
  | cls
  | ret
  | jp (NNN : Addr12)
  | call (NNN : Addr12)
  | sei (X : Reg) (KK : Byte)
  | snei (X : Reg) (KK : Byte)
  | se (X Y : Reg)
  | ldi (X : Reg) (KK : Byte)
  | addi (X : Reg) (KK : Byte)
  | ld (X Y : Reg)
  | or (X Y : Reg)
  | and (X Y : Reg)
  | xor (X Y : Reg)
  | add (X Y : Reg)
  | sub (X Y : Reg)
  /-- `Y` is decoded and ignored (R84), and kept so that the word can be recovered (R87). -/
  | shr (X Y : Reg)
  | subn (X Y : Reg)
  /-- `Y` is decoded and ignored (R84). -/
  | shl (X Y : Reg)
  | sne (X Y : Reg)
  | ldix (NNN : Addr12)
  | jpa (NNN : Addr12)
  | rnd (X : Reg) (KK : Byte)
  | drw (X Y : Reg) (N : Nibble)
  | skp (X : Reg)
  | sknp (X : Reg)
  | rdt (X : Reg)
  | ldk (X : Reg)
  | sdt (X : Reg)
  | sst (X : Reg)
  | addix (X : Reg)
  | ldf (X : Reg)
  | ldb (X : Reg)
  | ldxr (X : Reg)
  | ldrx (X : Reg)
  /-- Unknown/data, with the raw word (R86, R129). -/
  | unk (w : Word)
  deriving DecidableEq, Repr

end Sys2Proof
end

