-- ==== Sys2Proof/WellFormed.lean ====
section
/-! DEFINITION. Well-formed instructions. The operand types already hold every range of R73, so one check is left: the
unknown/data variant carries a word of the unknown space of spec/30_encoding.md R86, and no other. -/

namespace Sys2Proof

/-- The complete unknown space, listed as R86 lists it. -/
def isUnknownWord (w : Word) : Bool :=
  let op : Nibble := w.extractLsb' 12 4
  let n : Nibble := w.extractLsb' 0 4
  let kk : Byte := w.extractLsb' 0 8
  if op = 0x0 then w != 0x00E0 && w != 0x00EE
  else if op = 0x5 || op = 0x9 then n != 0
  else if op = 0x8 then n ∈ [0x8, 0x9, 0xA, 0xB, 0xC, 0xD, 0xF]
  else if op = 0xE then kk ∉ [0x9E, 0xA1]
  else if op = 0xF then kk ∉ [0x07, 0x0A, 0x15, 0x18, 0x1E, 0x29, 0x33, 0x55, 0x65]
  else false

/-- `unk w` stands only for a word no instruction has (R86, R88); every other term is well formed. -/
def wellFormed : Instr → Bool
  | .unk w => isUnknownWord w
  | .cls | .ret | .jp _ | .call _ | .sei _ _ | .snei _ _ | .se _ _ | .ldi _ _ | .addi _ _ | .ld _ _ | .or _ _
  | .and _ _ | .xor _ _ | .add _ _ | .sub _ _ | .shr _ _ | .subn _ _ | .shl _ _ | .sne _ _ | .ldix _ | .jpa _
  | .rnd _ _ | .drw _ _ _ | .skp _ | .sknp _ | .rdt _ | .ldk _ | .sdt _ | .sst _ | .addix _ | .ldf _ | .ldb _
  | .ldxr _ | .ldrx _ => true

end Sys2Proof
end

