-- ==== Sys2Proof/Decode.lean ====
section
/-! DEFINITION. The decoder (spec/30_encoding.md R70 to R86), total on every word, and the encoder written from the same
rows. The numeric selectors are the spec's decision D5 (log 12). -/

namespace Sys2Proof

/-- `OP = w[15:12]` (R71). -/
def opOf (w : Word) : Nibble := w.extractLsb' 12 4

/-- `X = w[11:8]` as a register index (R71, R73). -/
def xOf (w : Word) : Reg := (w.extractLsb' 8 4).toFin

/-- `Y = w[7:4]` as a register index (R71, R73). -/
def yOf (w : Word) : Reg := (w.extractLsb' 4 4).toFin

/-- `N = w[3:0]` (R71). -/
def nOf (w : Word) : Nibble := w.extractLsb' 0 4

/-- `KK = w[7:0]` (R71). -/
def kkOf (w : Word) : Byte := w.extractLsb' 0 8

/-- `NNN = w[11:0]` (R71). -/
def nnnOf (w : Word) : Addr12 := w.extractLsb' 0 12

/-- High nibble 0: two exact words, the rest unknown/data (R76). -/
def decodeZero (w : Word) : Instr :=
  if w = 0x00E0 then .cls else if w = 0x00EE then .ret else .unk w

/-- Family 8: the low nibble selects the sub-operation (R80). -/
def decodeEight (w : Word) : Instr :=
  let n := nOf w
  if n = 0x0 then .ld (xOf w) (yOf w)
  else if n = 0x1 then .or (xOf w) (yOf w)
  else if n = 0x2 then .and (xOf w) (yOf w)
  else if n = 0x3 then .xor (xOf w) (yOf w)
  else if n = 0x4 then .add (xOf w) (yOf w)
  else if n = 0x5 then .sub (xOf w) (yOf w)
  else if n = 0x6 then .shr (xOf w) (yOf w)
  else if n = 0x7 then .subn (xOf w) (yOf w)
  else if n = 0xE then .shl (xOf w) (yOf w)
  else .unk w

/-- Family E: the low byte selects (R82). -/
def decodeE (w : Word) : Instr :=
  let kk := kkOf w
  if kk = 0x9E then .skp (xOf w) else if kk = 0xA1 then .sknp (xOf w) else .unk w

/-- Family F: the low byte selects (R83). -/
def decodeF (w : Word) : Instr :=
  let kk := kkOf w
  if kk = 0x07 then .rdt (xOf w)
  else if kk = 0x0A then .ldk (xOf w)
  else if kk = 0x15 then .sdt (xOf w)
  else if kk = 0x18 then .sst (xOf w)
  else if kk = 0x1E then .addix (xOf w)
  else if kk = 0x29 then .ldf (xOf w)
  else if kk = 0x33 then .ldb (xOf w)
  else if kk = 0x55 then .ldxr (xOf w)
  else if kk = 0x65 then .ldrx (xOf w)
  else .unk w

/-- `Decode(w)`: total, a pure function of the word, "never a failure that halts execution" (R74, R75). -/
def decode (w : Word) : Instr :=
  let op := opOf w
  if op = 0x0 then decodeZero w
  else if op = 0x1 then .jp (nnnOf w)
  else if op = 0x2 then .call (nnnOf w)
  else if op = 0x3 then .sei (xOf w) (kkOf w)
  else if op = 0x4 then .snei (xOf w) (kkOf w)
  else if op = 0x5 then if nOf w = 0x0 then .se (xOf w) (yOf w) else .unk w
  else if op = 0x6 then .ldi (xOf w) (kkOf w)
  else if op = 0x7 then .addi (xOf w) (kkOf w)
  else if op = 0x8 then decodeEight w
  else if op = 0x9 then if nOf w = 0x0 then .sne (xOf w) (yOf w) else .unk w
  else if op = 0xA then .ldix (nnnOf w)
  else if op = 0xB then .jpa (nnnOf w)
  else if op = 0xC then .rnd (xOf w) (kkOf w)
  else if op = 0xD then .drw (xOf w) (yOf w) (nOf w)
  else if op = 0xE then decodeE w
  else decodeF w

/-- The word of two bytes, the byte at the lower address in the high bits (R53). -/
def wordOfBytes (hi lo : Byte) : Word := hi ++ lo

/-- The byte an instruction word stores at the lower address (R53). -/
def highByte (w : Word) : Byte := w.extractLsb' 8 8

/-- The byte an instruction word stores at the higher address (R53). -/
def lowByte (w : Word) : Byte := w.extractLsb' 0 8

/-- Decoding from a byte sequence: one instruction is two bytes (R70); fewer are no instruction word. -/
def decodeBytes : List Byte → Option (Instr × List Byte)
  | hi :: lo :: rest => some (decode (wordOfBytes hi lo), rest)
  | [_] => none
  | [] => none

/-- The four nibbles of an instruction word, left to right as a pattern such as `8XY4` is written (R71). -/
def word4 (op a b c : Nibble) : Word := op ++ a ++ b ++ c

/-- An instruction word of a nibble, a nibble and a low byte, such as `6XKK` (R71, R72 formats I and S). -/
def wordI (op a : Nibble) (kk : Byte) : Word := op ++ a ++ kk

/-- An instruction word of a nibble and a 12-bit address, such as `1NNN` (R72 format A). -/
def wordA (op : Nibble) (nnn : Addr12) : Word := op ++ nnn

/-- A register index as a 4-bit field. -/
def regField (r : Reg) : Nibble := BitVec.ofFin r

/-- The word of an instruction, from the `word` column of R90; for `unk w`, `w` itself (R87). -/
def encode : Instr → Word
  | .cls => 0x00E0
  | .ret => 0x00EE
  | .jp nnn => wordA 0x1 nnn
  | .call nnn => wordA 0x2 nnn
  | .sei x kk => wordI 0x3 (regField x) kk
  | .snei x kk => wordI 0x4 (regField x) kk
  | .se x y => word4 0x5 (regField x) (regField y) 0x0
  | .ldi x kk => wordI 0x6 (regField x) kk
  | .addi x kk => wordI 0x7 (regField x) kk
  | .ld x y => word4 0x8 (regField x) (regField y) 0x0
  | .or x y => word4 0x8 (regField x) (regField y) 0x1
  | .and x y => word4 0x8 (regField x) (regField y) 0x2
  | .xor x y => word4 0x8 (regField x) (regField y) 0x3
  | .add x y => word4 0x8 (regField x) (regField y) 0x4
  | .sub x y => word4 0x8 (regField x) (regField y) 0x5
  | .shr x y => word4 0x8 (regField x) (regField y) 0x6
  | .subn x y => word4 0x8 (regField x) (regField y) 0x7
  | .shl x y => word4 0x8 (regField x) (regField y) 0xE
  | .sne x y => word4 0x9 (regField x) (regField y) 0x0
  | .ldix nnn => wordA 0xA nnn
  | .jpa nnn => wordA 0xB nnn
  | .rnd x kk => wordI 0xC (regField x) kk
  | .drw x y n => word4 0xD (regField x) (regField y) n
  | .skp x => wordI 0xE (regField x) 0x9E
  | .sknp x => wordI 0xE (regField x) 0xA1
  | .rdt x => wordI 0xF (regField x) 0x07
  | .ldk x => wordI 0xF (regField x) 0x0A
  | .sdt x => wordI 0xF (regField x) 0x15
  | .sst x => wordI 0xF (regField x) 0x18
  | .addix x => wordI 0xF (regField x) 0x1E
  | .ldf x => wordI 0xF (regField x) 0x29
  | .ldb x => wordI 0xF (regField x) 0x33
  | .ldxr x => wordI 0xF (regField x) 0x55
  | .ldrx x => wordI 0xF (regField x) 0x65
  | .unk w => w

/-- The decoder applied to a word numbered as spec/opcode_table.json numbers it: bit 0 is the least significant bit of
the instruction's one 16-bit word. The word is laid out big-endian (R53) and given to `decodeBytes`. -/
def decodeTableWord (nbits w : Nat) : Option Instr :=
  if nbits ≤ 16 then
    let word : Word := BitVec.ofNat 16 (w % 2 ^ nbits)
    (decodeBytes [highByte word, lowByte word]).map Prod.fst
  else none

end Sys2Proof
end

