-- ==== Sys2Proof/Config.lean ====
section
/-! DEFINITION. The parameters of the implementation (spec/00_scope.md R6, R7) and the free values. A parameter the
spec fixes is a definition; one it leaves OPEN is an opaque constant with no body, so no proof can see which value it has. -/

namespace Sys2Proof.Config

/-- RAM_SIZE: 4096 bytes, addresses 0..4095 (R6, R33). -/
@[simp] abbrev ramSize : Nat := 4096

/-- PROG_START: the load address and the entry point 0x200 (R6, R57, R218). -/
@[simp] abbrev progStart : Nat := 0x200

/-- MAX_PROGRAM: 4096 - 0x200 = 3584 bytes (R6, R215). -/
@[simp] abbrev maxProgram : Nat := 3584

/-- FB_W: 64 columns (R6, R34). -/
@[simp] abbrev fbWidth : Nat := 64

/-- FB_H: 32 rows (R6, R34). -/
@[simp] abbrev fbHeight : Nat := 32

/-- STACK_DEPTH: 15 usable levels (R7, R29, decision D8). -/
@[simp] abbrev stackDepth : Nat := 15

/-- FLAG_REG: register 15 (R6, R21). -/
@[simp] abbrev flagReg : Reg := 15

/-- GLYPH_BYTES: 5 bytes per font glyph (R6). -/
@[simp] abbrev glyphBytes : Nat := 5

/-- The length of the font region: 16 glyphs of 5 bytes (R7, R27). -/
@[simp] abbrev fontBytes : Nat := 80

/-- FONT_BASE, OPEN (R7, D3, log 2). The type holds its one constraint, `FONT_BASE + 80 <= 0x200`. -/
opaque fontBase : Fin 433

/-- FONT_DATA, OPEN (R7, R27, D4, log 3): the 80 glyph bytes. -/
opaque fontData : Vector Byte 80

/-- FLAG_WRITE_LAST, OPEN (R7, R113, D20, log 1): true when the flag survives, false when the result does. -/
opaque flagWriteLast : Bool

/-- RESET_CLEARS_RAM, OPEN (R7, R212, D24, log 4). -/
opaque resetClearsRam : Bool

/-- The byte on the step's `rnd` input at draw `n`, under no law (R111, D15, log 5). -/
opaque rnd : Nat → Byte

/-- What `fb_changed` reports at draw `n` when CLS or DRW changed no cell: either value (R37, D14, log 6). -/
opaque fbReport : Nat → Bool

/-- After a fatal error at draw `n`, whether element `k` of what the step would have written holds its new value
(R190, D23, log 8). -/
opaque residueIsNew : Nat → Nat → Bool

/-- The `unknown` output of a step that raised a fatal error, unspecified (R190, log 8). -/
opaque residueUnknown : Nat → Option Word

end Sys2Proof.Config
end

