-- ==== Sys2Proof/Machine/State.lean ====
section
/-! DEFINITION. The state of the machine (spec/10_state.md), the reasons a step can stop (spec/60_exceptions.md R181, R192)
and the state after reset (R38). Everything the spec gives the machine stands here as plain data. -/

namespace Sys2Proof.Machine

/-- RAM as a list of address and byte pairs in one canonical form (`Memory.wf`, Machine/Ops.lean): what is not listed reads
as the reset contents (`Memory.unlisted`). -/
abbrev Memory := List Host.Cell

/-- The complete state (10_state.md, opening), the outputs of the most recent step (R36), and the model's own counter. -/
structure State where
  /-- The general registers `x[0..15]`; `x[15]` is the flags register (R20, R21). -/
  x : Vector Byte 16
  /-- The index register (R28). -/
  I : Word
  /-- The program counter (R23). -/
  pc : Word
  /-- The stack pointer: how many return addresses are held (R29). -/
  sp : Byte
  /-- The 16 slots of return addresses (R29). -/
  stack : Vector Word 16
  /-- The delay timer (R30). -/
  dt : Byte
  /-- The sound timer (R30). -/
  st : Byte
  /-- RAM (R33). -/
  ram : Memory
  /-- The framebuffer, cell `y*64 + x` (R34). -/
  fb : Vector Bool 2048
  /-- The keypad flags, written only by the host (R35). -/
  key : Vector Bool 16
  /-- The `fb_changed` output of the most recent step (R36, R37, R42). -/
  fbChanged : Bool
  /-- The `unknown` output of the most recent step (R36, R129). -/
  unknown : Option Word
  /-- The mark of a machine whose last step raised a fatal error (R190, R192). -/
  faulted : Bool
  /-- The model's own counter: which free value is drawn next (log 6). -/
  draws : Nat
  deriving DecidableEq, Repr

/-- The error codes of R181, each with its information. All but `programTooLarge` are fatal to a step. Stopping is safe:
the spec names each condition an error, and nothing is claimed of the state after it (R190). -/
inductive Fault where
  /-- Code 1, raised by the fetch, DRW, LDB, LDXR and LDRX at the first address above 4095 (R182). Safe. -/
  | ramOutOfRange (addr : Nat)
  /-- Code 2, raised by CALL when 15 return addresses are held (R183); also by RET on a stack pointer above 15, which no run
  reaches (log 10). Safe. -/
  | stackOverflow (sp : Nat)
  /-- Code 3, raised by RET when no return address is held (R184). Safe. -/
  | stackUnderflow (sp : Nat)
  /-- Code 4, raised by DRW at the first position outside the screen (R185). Safe. -/
  | framebufferOutOfRange (px py : Nat)
  /-- Code 5, raised by SKP and SKNP when the register holds more than 15 (R186). Safe. -/
  | keypadIndexOutOfRange (k : Nat)
  /-- Code 6, returned by the host operation `load_program`, never by a step (R187). Safe. -/
  | programTooLarge (len : Nat)
  deriving DecidableEq, Repr

/-- Why a step has no meaning. -/
inductive Refusal where
  /-- The instruction has no meaning in the model yet; raised by exec's arm only. Safe. -/
  | notModelled (mnemonic : String)
  /-- `step()` on a faulted machine: "refused: this spec gives it no meaning" (R192, U3). Raised by `step`. Safe. -/
  | machineFaulted
  deriving DecidableEq, Repr

/-- What executing an instruction, or a step, answers. -/
abbrev Result := Host.Outcome State Fault Refusal

/-- The machine right after construction and `reset` (R38, R210, R211): memory lists nothing, so it reads as the font at
FONT_BASE and 0 elsewhere. -/
def State.reset : State where
  x := Vector.replicate 16 0
  I := 0
  pc := 0x200
  sp := 0
  stack := Vector.replicate 16 0
  dt := 0
  st := 0
  ram := []
  fb := Vector.replicate 2048 false
  key := Vector.replicate 16 false
  fbChanged := false
  unknown := none
  faulted := false
  draws := 0

end Sys2Proof.Machine
end

