-- ==== Sys2Proof/Machine/Ops.lean ====
section
/-! DEFINITION. The named operations over RAM, registers, stack, framebuffer, keypad and timers, and raising a fatal
error (spec/00_scope.md R10 to R12, spec/20_memory.md, spec/10_state.md). -/

namespace Sys2Proof.Machine

/-! ## RAM -/

/-- FONT_BASE as an address (R7, R27). -/
def fontAddr : Nat := Config.fontBase.val

/-- What an address not listed reads as: the reset contents, FONT_DATA in the font region and 0 elsewhere (R27, R38). The
font lies below 0x200 (R7), so an address from there on needs no look at FONT_BASE. -/
def Memory.unlisted (a : Nat) : Byte :=
  if 0x200 ≤ a then 0
  else if fontAddr ≤ a then (Config.fontData[a - fontAddr]?).getD 0
  else 0

/-- The canonical form: addresses strictly rising, each in RAM, and no entry equal to what its address reads as unlisted. -/
abbrev Memory.wf (m : Memory) : Prop :=
  m.Pairwise (fun c d => c.1 < d.1) ∧ ∀ c ∈ m, c.1 < 4096 ∧ c.2 ≠ Memory.unlisted c.1

/-- The byte an address holds. -/
def Memory.read (m : Memory) (a : Nat) : Byte :=
  match m with
  | [] => Memory.unlisted a
  | c :: rest => if c.1 = a then c.2 else Memory.read rest a

/-- List `v` at `a`, keeping the order. -/
def Memory.insert (m : Memory) (a : Nat) (v : Byte) : Memory :=
  match m with
  | [] => [(a, v)]
  | c :: rest => if a < c.1 then (a, v) :: c :: rest else if c.1 = a then (a, v) :: rest else c :: Memory.insert rest a v

/-- Drop the entry at `a`. -/
def Memory.erase (m : Memory) (a : Nat) : Memory := m.filter (fun c => c.1 != a)

/-- Store a byte, keeping the canonical form. -/
def Memory.write (m : Memory) (a : Nat) (v : Byte) : Memory :=
  if v = Memory.unlisted a then m.erase a else m.insert a v

/-- `MemRead(addr, 1)` (R11, R51): `addr` is an integer, not wrapped. -/
def readByte (m : Memory) (a : Nat) : Except Fault Byte :=
  if a < Config.ramSize then .ok (m.read a) else .error (.ramOutOfRange a)

/-- `MemWrite(addr, 1, v)` (R11, R51). -/
def writeByte (m : Memory) (a : Nat) (v : Byte) : Except Fault Memory :=
  if a < Config.ramSize then .ok (m.write a v) else .error (.ramOutOfRange a)

/-- `n` bytes from `a` up, one at a time in ascending order (R55). -/
def readBytes (m : Memory) (a : Nat) : Nat → Except Fault (List Byte)
  | 0 => .ok []
  | n + 1 =>
    match readByte m a with
    | .error e => .error e
    | .ok b =>
      match readBytes m (a + 1) n with
      | .error e => .error e
      | .ok bs => .ok (b :: bs)

/-- Store bytes from `a` up, one at a time in ascending order (R55). -/
def writeBytes (m : Memory) (a : Nat) : List Byte → Except Fault Memory
  | [] => .ok m
  | b :: bs =>
    match writeByte m a b with
    | .error e => .error e
    | .ok m' => writeBytes m' (a + 1) bs

/-! ## Registers, `I`, `pc`, timers -/

/-- `x[r]` (R10, R20): no register is hardwired. -/
def State.reg (s : State) (r : Reg) : Byte := s.x[r.val]

/-- `x[r] <- v` (R10, R20). -/
def State.setReg (s : State) (r : Reg) (v : Byte) : State := { s with x := s.x.set r.val v }

/-- `x[i] <- b_i` for the listed bytes, from `x[0]` up; registers beyond the list keep their value (R170). -/
def State.setRegs (s : State) (bs : List Byte) : State :=
  { s with x := Vector.ofFn fun i : Fin 16 => (bs[i.val]?).getD (s.reg i) }

/-- `I <- v` (R28). -/
def State.setI (s : State) (v : Word) : State := { s with I := v }

/-- `pc <- v` (R23). -/
def State.setPc (s : State) (v : Word) : State := { s with pc := v }

/-- `dt <- v` (R30). -/
def State.setDt (s : State) (v : Byte) : State := { s with dt := v }

/-- `st <- v` (R30). -/
def State.setSt (s : State) (v : Byte) : State := { s with st := v }

/-- RAM after a store. -/
def State.setRam (s : State) (m : Memory) : State := { s with ram := m }

/-- The step's `unknown` output (R36, R129). -/
def State.setUnknown (s : State) (w : Word) : State := { s with unknown := some w }

/-- The step's advance past the fetched word, with its outputs cleared (R120). `pc + 2` is modulo 65536 (R25, D32). -/
def State.beginStep (s : State) : State := { s with pc := s.pc + 2, fbChanged := false, unknown := none }

/-- One timer's tick: down by 1 while above 0 (R30, R156). -/
def tickTimer (t : Byte) : Byte := if 0 < t.toNat then t - 1 else t

/-- The timer tick that ends a step (R156). -/
def State.tick (s : State) : State := { s with dt := tickTimer s.dt, st := tickTimer s.st }

/-- The byte on the step's `rnd` input (R111), a free value. -/
def State.rndInput (s : State) : Byte := Config.rnd s.draws

/-- The next free value is drawn afresh (log 6). -/
def State.countDraw (s : State) : State := { s with draws := s.draws + 1 }

/-! ## Stack -/

/-- `stack[k]` (R29); there are 16 slots. -/
def State.slot (s : State) (k : Nat) : Word := (s.stack[k]?).getD 0

/-- The push half: increment, then store `pc` at `stack[sp]` (R29, R122). -/
def State.pushPc (s : State) : State :=
  { s with sp := s.sp + 1, stack := s.stack.setIfInBounds (s.sp + 1).toNat s.pc }

/-- The pop half: load `pc` from `stack[sp]`, then decrement (R29, R123, C1). The slot keeps its value. -/
def State.popPc (s : State) : State := { s with pc := s.slot s.sp.toNat, sp := s.sp - 1 }

/-! ## Keypad and framebuffer -/

/-- `key[k]` (R35). -/
def State.keyDown (s : State) (k : Nat) : Bool := (s.key[k]?).getD false

/-- The lowest-indexed pressed key, if any (R152). -/
def State.lowestKey (s : State) : Option Nat := (List.range 16).find? fun k => s.keyDown k

/-- `fb[i]` (R34). -/
def fbGet (fb : Vector Bool 2048) (i : Nat) : Bool := (fb[i]?).getD false

/-- `fb[i] <- v` (R34). -/
def fbSet (fb : Vector Bool 2048) (i : Nat) (v : Bool) : Vector Bool 2048 := fb.setIfInBounds i v

/-- The framebuffer all off (R140). -/
def fbClear : Vector Bool 2048 := Vector.replicate 2048 false

/-- What a CLS or a DRW leaves: the new framebuffer, and `fb_changed` 1 if some cell changed, and free if none did
(R37, D14). -/
def State.showFb (s : State) (fb : Vector Bool 2048) : State :=
  { s with
    fb := fb
    fbChanged := if fb.toList = s.fb.toList then Config.fbReport s.draws else true
    draws := s.draws + 1 }

/-! ## Fatal errors and the fetch -/

/-- `raise E(info)`: the step ends at once with the fatal error, and control goes nowhere inside the machine, "as there is
no vector, handler or saved-state area" (R12, R190). There is no return from an error (R192). -/
def raise (e : Fault) : Result := .fault e

/-- The fetch: the big-endian word at `[pc, pc+1]`, the lower address first (R53, R120). The address `pc + 1` is an integer,
never reduced (D25). -/
def fetchWord (s : State) : Except Fault Word :=
  match readByte s.ram s.pc.toNat with
  | .error e => .error e
  | .ok hi =>
    match readByte s.ram (s.pc.toNat + 1) with
    | .error e => .error e
    | .ok lo => .ok (hi ++ lo)

end Sys2Proof.Machine
end

