-- ==== Sys2Proof/Machine/Flags.lean ====
section
/-! DEFINITION. The flag computations of spec/10_state.md R26 and spec/40_alu.md R106 to R110, and the two writes of a
flag-writing instruction (R113). Register 15 is the only flag and receives the whole value 0 or 1 (R21). -/

namespace Sys2Proof.Machine

/-- A flag as the 8-bit value 0 or 1 (R21). -/
def flagByte (b : Bool) : Byte := if b then 1 else 0

/-- Carry: the 9-bit sum exceeded 255 (R106). -/
def carry (a b : Byte) : Bool := 255 < a.toNat + b.toNat

/-- No borrow in `a - b`: `a >= b` (R107, R109). -/
def noBorrow (a b : Byte) : Bool := b.toNat ≤ a.toNat

/-- The bit a right shift by one moves out: bit 0, before the shift (R108). -/
def bitOutRight (a : Byte) : Bool := a.getLsbD 0

/-- The bit a left shift by one moves out: bit 7, before the shift (R110). -/
def bitOutLeft (a : Byte) : Bool := a.getLsbD 7

/-- The two writes of ADD, SUB, SUBN, SHR and SHL: the result to `x[X]`, the flag to `x[15]`. With `X` = 15 both go to
`x[15]`, and FLAG_WRITE_LAST says which survives (R113, log 1). -/
def State.setResultAndFlag (s : State) (X : Reg) (result : Byte) (flag : Bool) : State :=
  if X = Config.flagReg then s.setReg Config.flagReg (if Config.flagWriteLast then flagByte flag else result)
  else (s.setReg X result).setReg Config.flagReg (flagByte flag)

end Sys2Proof.Machine
end

