-- ==== Sys2Proof/Machine/Operands.lean ====
section
/-! DEFINITION. The operand forms: zero-extended address fields, the one data-addressing mode, and the skip
(spec/30_encoding.md R73, spec/44_index_memory.md R171, spec/41_control.md R130). -/

namespace Sys2Proof.Machine

/-- `zext_16(NNN)` (R9, R73). -/
def zext16 (nnn : Addr12) : Word := nnn.setWidth 16

/-- `zext_16` of a register value, for the sums of JPA and ADDIX (R9, R124, R166). -/
def zextReg (v : Byte) : Word := v.setWidth 16

/-- The effective address `I + k`, an integer reduced modulo nothing (R52, R171). -/
def State.effAddr (s : State) (k : Nat) : Nat := s.I.toNat + k

/-- A skip: a further 2 on the already advanced `pc` when the condition holds (R130). -/
def State.skipIf (s : State) (c : Bool) : State := if c then s.setPc (s.pc + 2) else s

/-- `x[0]` to `x[X]`, inclusive, in ascending order (R169). -/
def State.regsThrough (s : State) (X : Reg) : List Byte := s.x.toList.take (X.val + 1)

/-- The decimal digits of a byte, most significant first (R168). -/
def bcdDigits (v : Byte) : List Byte :=
  [BitVec.ofNat 8 (v.toNat / 100), BitVec.ofNat 8 (v.toNat / 10 % 10), BitVec.ofNat 8 (v.toNat % 10)]

end Sys2Proof.Machine
end

