-- ==== Sys2Proof/Machine/Alu.lean ====
section
/-! DEFINITION. Register, arithmetic, logic, shift and random instructions (spec/40_alu.md). Every source operand is read
before anything is written (R112); none changes `pc`, `I`, `sp`, the stack, RAM, the framebuffer or the timers. -/

namespace Sys2Proof.Machine

/-- LDI VX, KK (R100). -/
def execLdi (X : Reg) (KK : Byte) (s : State) : Result := .next (s.setReg X KK)

/-- ADDI VX, KK (R101): modulo 256, no flag. -/
def execAddi (X : Reg) (KK : Byte) (s : State) : Result := .next (s.setReg X (s.reg X + KK))

/-- LD VX, VY (R102). -/
def execLd (X Y : Reg) (s : State) : Result := .next (s.setReg X (s.reg Y))

/-- OR VX, VY (R103). -/
def execOr (X Y : Reg) (s : State) : Result := .next (s.setReg X (s.reg X ||| s.reg Y))

/-- AND VX, VY (R104). -/
def execAnd (X Y : Reg) (s : State) : Result := .next (s.setReg X (s.reg X &&& s.reg Y))

/-- XOR VX, VY (R105). -/
def execXor (X Y : Reg) (s : State) : Result := .next (s.setReg X (s.reg X ^^^ s.reg Y))

/-- ADD VX, VY (R106): the sum modulo 256, the carry in `x[15]`. -/
def execAdd (X Y : Reg) (s : State) : Result :=
  let a := s.reg X
  let b := s.reg Y
  .next (s.setResultAndFlag X (a + b) (carry a b))

/-- SUB VX, VY (R107): `x[X] - x[Y]` modulo 256, no-borrow in `x[15]`. -/
def execSub (X Y : Reg) (s : State) : Result :=
  let a := s.reg X
  let b := s.reg Y
  .next (s.setResultAndFlag X (a - b) (noBorrow a b))

/-- SUBN VX, VY (R109): `x[Y] - x[X]` modulo 256 into `x[X]`, no-borrow of the reversed subtraction in `x[15]`. -/
def execSubn (X Y : Reg) (s : State) : Result :=
  let a := s.reg X
  let b := s.reg Y
  .next (s.setResultAndFlag X (b - a) (noBorrow b a))

/-- SHR VX, VY (R108): `x[X]` right by one, bit 7 becomes 0; `Y` is ignored (R84). -/
def execShr (X _Y : Reg) (s : State) : Result :=
  let a := s.reg X
  .next (s.setResultAndFlag X (a >>> 1) (bitOutRight a))

/-- SHL VX, VY (R110): `x[X]` left by one, bit 0 becomes 0; `Y` is ignored (R84). -/
def execShl (X _Y : Reg) (s : State) : Result :=
  let a := s.reg X
  .next (s.setResultAndFlag X (a <<< 1) (bitOutLeft a))

/-- RND VX, KK (R111): the `rnd` byte masked; the byte is a free value, drawn afresh each time (D15, log 5). -/
def execRnd (X : Reg) (KK : Byte) (s : State) : Result := .next ((s.setReg X (s.rndInput &&& KK)).countDraw)

end Sys2Proof.Machine
end

