-- ==== Sys2Proof/Machine/Control.lean ====
section
/-! DEFINITION. Control transfer, skips and the unknown/data word (spec/41_control.md). Each sees `pc` already advanced by
2; a target is never checked when the transfer executes (R132). -/

namespace Sys2Proof.Machine

/-- JP NNN (R121). -/
def execJp (NNN : Addr12) (s : State) : Result := .next (s.setPc (zext16 NNN))

/-- JPA NNN (R124): `NNN + x[0]`, which fits in 16 bits. -/
def execJpa (NNN : Addr12) (s : State) : Result := .next (s.setPc (zext16 NNN + zextReg (s.reg 0)))

/-- CALL NNN (R122): the check precedes every write. -/
def execCall (NNN : Addr12) (s : State) : Result :=
  if Config.stackDepth ≤ s.sp.toNat then raise (.stackOverflow s.sp.toNat)
  else .next (s.pushPc.setPc (zext16 NNN))

/-- RET (R123). A stack pointer above 15, which no run reaches (R29), names no slot and is an out-of-range stack access
(R180, log 10). -/
def execRet (s : State) : Result :=
  if s.sp.toNat = 0 then raise (.stackUnderflow s.sp.toNat)
  else if Config.stackDepth < s.sp.toNat then raise (.stackOverflow s.sp.toNat)
  else .next s.popPc

/-- SEI VX, KK (R125). -/
def execSei (X : Reg) (KK : Byte) (s : State) : Result := .next (s.skipIf (s.reg X == KK))

/-- SNEI VX, KK (R126). -/
def execSnei (X : Reg) (KK : Byte) (s : State) : Result := .next (s.skipIf (s.reg X != KK))

/-- SE VX, VY (R127). -/
def execSe (X Y : Reg) (s : State) : Result := .next (s.skipIf (s.reg X == s.reg Y))

/-- SNE VX, VY (R128). -/
def execSne (X Y : Reg) (s : State) : Result := .next (s.skipIf (s.reg X != s.reg Y))

/-- UNK(w) (R129): the diagnostic output, and nothing else. -/
def execUnk (w : Word) (s : State) : Result := .next (s.setUnknown w)

end Sys2Proof.Machine
end

