-- ==== Sys2Proof/Machine/Display.lean ====
section
/-! DEFINITION. Display instructions: framebuffer clear and XOR-blit (spec/42_display.md). -/

namespace Sys2Proof.Machine

/-- CLS (R140): every cell off. -/
def execCls (s : State) : Result := .next (s.showFb fbClear)

/-- What DRW has done so far: the framebuffer, and whether an XOR turned an on pixel off. -/
structure Blit where
  fb : Vector Bool 2048
  hit : Bool
  deriving DecidableEq, Repr

/-- The sprite bit of column `c` (0 = leftmost): bit `7 - c` of the row's byte (R145). -/
def spriteBit (b : Byte) (c : Nat) : Bool := b.getLsbD (7 - c)

/-- One pixel position of a row: rejected when it lies past the screen's right or bottom edge, whatever the sprite bit
(R142); otherwise XORed, with the collision noted (R141). -/
def blitPixel (px py : Nat) (bit : Bool) (d : Blit) : Except Fault Blit :=
  if Config.fbWidth ≤ px ∨ Config.fbHeight ≤ py then .error (.framebufferOutOfRange px py)
  else
    let i := py * 64 + px
    .ok { fb := fbSet d.fb i (fbGet d.fb i ^^ bit), hit := d.hit || (bit && fbGet d.fb i) }

/-- The columns of one row, left to right (R141, R146). -/
def blitCols (x0 py : Nat) (b : Byte) : List Nat → Blit → Except Fault Blit
  | [], d => .ok d
  | c :: cs, d =>
    match blitPixel (x0 + c) py (spriteBit b c) d with
    | .error e => .error e
    | .ok d' => blitCols x0 py b cs d'

/-- The rows, top to bottom, the RAM read of a row before its columns (R141, R146). -/
def blitRows (m : Memory) (base x0 y0 : Nat) : List Nat → Blit → Except Fault Blit
  | [], d => .ok d
  | r :: rs, d =>
    match readByte m (base + r) with
    | .error e => .error e
    | .ok b =>
      match blitCols x0 (y0 + r) b (List.range 8) d with
      | .error e => .error e
      | .ok d' => blitRows m base x0 y0 rs d'

/-- The starting column: `x[X] mod 64`, sampled before the flag is reset (R141, R143). -/
def State.drawX (s : State) (X : Reg) : Nat := (s.reg X).toNat % 64

/-- The starting row: `x[Y] mod 32` (R141, R143). -/
def State.drawY (s : State) (Y : Reg) : Nat := (s.reg Y).toNat % 32

/-- DRW VX, VY, N (R141 to R146). `x[15]` is 0 at the start and 1 once a pixel has gone from on to off; with `N` = 0 the
row loop runs zero times (R144). -/
def execDrw (X Y : Reg) (N : Nibble) (s : State) : Result :=
  match blitRows s.ram (s.effAddr 0) (s.drawX X) (s.drawY Y) (List.range N.toNat) { fb := s.fb, hit := false } with
  | .error e => raise e
  | .ok d => .next ((s.setReg Config.flagReg (flagByte d.hit)).showFb d.fb)

end Sys2Proof.Machine
end

