-- ==== Sys2Proof/Machine/IndexMemory.lean ====
section
/-! DEFINITION. Index-register and memory instructions (spec/44_index_memory.md). The one addressing mode is `I` plus a
non-negative offset, reduced modulo nothing; LDB, LDXR and LDRX leave `I` unchanged (R171). -/

namespace Sys2Proof.Machine

/-- LDIX NNN (R165). -/
def execLdix (NNN : Addr12) (s : State) : Result := .next (s.setI (zext16 NNN))

/-- ADDIX VX (R166): modulo 65536, no flag. -/
def execAddix (X : Reg) (s : State) : Result := .next (s.setI (s.I + zextReg (s.reg X)))

/-- LDF VX (R167): `FONT_BASE + 5 * x[X]`, the register value used whole. -/
def execLdf (X : Reg) (s : State) : Result :=
  .next (s.setI (BitVec.ofNat 16 (fontAddr + Config.glyphBytes * (s.reg X).toNat)))

/-- LDB VX (R168): hundreds, tens and ones at `I`, `I+1`, `I+2`. -/
def execLdb (X : Reg) (s : State) : Result :=
  match writeBytes s.ram (s.effAddr 0) (bcdDigits (s.reg X)) with
  | .error e => raise e
  | .ok m => .next (s.setRam m)

/-- LDXR VX (R169): `x[0]`..`x[X]` stored from `I` up. -/
def execLdxr (X : Reg) (s : State) : Result :=
  match writeBytes s.ram (s.effAddr 0) (s.regsThrough X) with
  | .error e => raise e
  | .ok m => .next (s.setRam m)

/-- LDRX VX (R170): `x[0]`..`x[X]` loaded from `I` up; registers above `X` are unchanged. -/
def execLdrx (X : Reg) (s : State) : Result :=
  match readBytes s.ram (s.effAddr 0) (X.val + 1) with
  | .error e => raise e
  | .ok bs => .next (s.setRegs bs)

end Sys2Proof.Machine
end

