-- ==== Sys2Proof/Machine/KeypadTimers.lean ====
section
/-! DEFINITION. Keypad and timer instructions (spec/43_keypad_timers.md). The key tested is the one whose index is the
register's value, not masked (R150, D16). -/

namespace Sys2Proof.Machine

/-- SKP VX (R150). -/
def execSkp (X : Reg) (s : State) : Result :=
  let k := (s.reg X).toNat
  if 15 < k then raise (.keypadIndexOutOfRange k) else .next (s.skipIf (s.keyDown k))

/-- SKNP VX (R151). -/
def execSknp (X : Reg) (s : State) : Result :=
  let k := (s.reg X).toNat
  if 15 < k then raise (.keypadIndexOutOfRange k) else .next (s.skipIf (!s.keyDown k))

/-- LDK VX (R152): with no key down, back to this instruction; else the lowest pressed key. -/
def execLdk (X : Reg) (s : State) : Result :=
  match s.lowestKey with
  | none => .next (s.setPc (s.pc - 2))
  | some k => .next (s.setReg X (BitVec.ofNat 8 k))

/-- RDT VX (R153): the value before this step's tick. -/
def execRdt (X : Reg) (s : State) : Result := .next (s.setReg X s.dt)

/-- SDT VX (R154). -/
def execSdt (X : Reg) (s : State) : Result := .next (s.setDt (s.reg X))

/-- SST VX (R155). -/
def execSst (X : Reg) (s : State) : Result := .next (s.setSt (s.reg X))

end Sys2Proof.Machine
end

