-- ==== Sys2Proof/Machine/Dispatch.lean ====
section
/-! DEFINITION. The execute phase of a step: one arm per instruction (spec/41_control.md R120). -/

namespace Sys2Proof.Machine

def exec (i : Instr) (s : State) : Host.Outcome State Fault Refusal :=
  match i with
  | .cls => Sys2Proof.Machine.execCls s
  | .ret => Sys2Proof.Machine.execRet s
  | .jp nnn => Sys2Proof.Machine.execJp nnn s
  | .call nnn => Sys2Proof.Machine.execCall nnn s
  | .sei x kk => Sys2Proof.Machine.execSei x kk s
  | .snei x kk => Sys2Proof.Machine.execSnei x kk s
  | .se x y => Sys2Proof.Machine.execSe x y s
  | .ldi x kk => Sys2Proof.Machine.execLdi x kk s
  | .addi x kk => Sys2Proof.Machine.execAddi x kk s
  | .ld x y => Sys2Proof.Machine.execLd x y s
  | .or x y => Sys2Proof.Machine.execOr x y s
  | .and x y => Sys2Proof.Machine.execAnd x y s
  | .xor x y => Sys2Proof.Machine.execXor x y s
  | .add x y => Sys2Proof.Machine.execAdd x y s
  | .sub x y => Sys2Proof.Machine.execSub x y s
  | .shr x y => Sys2Proof.Machine.execShr x y s
  | .subn x y => Sys2Proof.Machine.execSubn x y s
  | .shl x y => Sys2Proof.Machine.execShl x y s
  | .sne x y => Sys2Proof.Machine.execSne x y s
  | .ldix nnn => Sys2Proof.Machine.execLdix nnn s
  | .jpa nnn => Sys2Proof.Machine.execJpa nnn s
  | .rnd x kk => Sys2Proof.Machine.execRnd x kk s
  | .drw x y n => Sys2Proof.Machine.execDrw x y n s
  | .skp x => Sys2Proof.Machine.execSkp x s
  | .sknp x => Sys2Proof.Machine.execSknp x s
  | .rdt x => Sys2Proof.Machine.execRdt x s
  | .ldk x => Sys2Proof.Machine.execLdk x s
  | .sdt x => Sys2Proof.Machine.execSdt x s
  | .sst x => Sys2Proof.Machine.execSst x s
  | .addix x => Sys2Proof.Machine.execAddix x s
  | .ldf x => Sys2Proof.Machine.execLdf x s
  | .ldb x => Sys2Proof.Machine.execLdb x s
  | .ldxr x => Sys2Proof.Machine.execLdxr x s
  | .ldrx x => Sys2Proof.Machine.execLdrx x s
  | .unk w => Sys2Proof.Machine.execUnk w s

end Sys2Proof.Machine
end

