-- ==== Sys2Proof/Machine/Step.lean ====
section
/-! DEFINITION. The step (spec/41_control.md R120): fetch, advance, decode, execute, tick. -/

namespace Sys2Proof.Machine

/-- `step()` (R120). A step on a faulted machine is refused (R192); a fatal error in the fetch or in the execution ends the
step, with no tick claimed (R190). -/
def step (s : State) : Host.Outcome State Fault Refusal :=
  if s.faulted then .refused .machineFaulted
  else
    match fetchWord s with
    | .error e => raise e
    | .ok w =>
      match exec (decode w) s.beginStep with
      | .next t => .next t.tick
      | .fault e => .fault e
      | .refused r => .refused r

/-- The state with an instruction word stored where the next step fetches: at `pc` and `pc + 1`, big-endian (R53), when
both addresses are RAM. -/
def State.withFetchWord (s : State) (nbits w : Nat) : State :=
  let word : Word := BitVec.ofNat 16 (w % 2 ^ nbits)
  if s.pc.toNat + 1 < Config.ramSize then
    s.setRam ((s.ram.write s.pc.toNat (highByte word)).write (s.pc.toNat + 1) (lowByte word))
  else s

end Sys2Proof.Machine
end

