-- ==== Sys2Proof/Machine/HostOps.lean ====
section
/-! DEFINITION. The host's operations (spec/10_state.md R40 to R44, spec/70_reset_and_hazards.md R210 to R215), the outputs
of a step as the host gets them (R36, R181), and the state a fatal error leaves (spec/60_exceptions.md R190). -/

namespace Sys2Proof.Machine

/-! ## Construction, reset, program load, keys, reads -/

/-- Store bytes from an address up, all of them inside RAM. -/
def Memory.load (m : Memory) (a : Nat) : List Byte → Memory
  | [] => m
  | b :: bs => Memory.load (m.write a b) (a + 1) bs

/-- Construction (R210): every element 0, the font region and `pc` too, and the machine not faulted. -/
def State.construct : State :=
  { State.reset with pc := 0, ram := Memory.load [] fontAddr (List.replicate Config.fontBytes 0) }

/-- `reset()` (R211 to R213). RAM outside the font is cleared or kept as RESET_CLEARS_RAM says (log 4); the keypad is
kept. It is not a step: the outputs of the most recent step stay (log 7). -/
def hostReset (s : State) : State :=
  { State.reset with
    ram := if Config.resetClearsRam then [] else s.ram.load fontAddr Config.fontData.toList
    key := s.key
    fbChanged := s.fbChanged
    unknown := s.unknown
    draws := s.draws }

/-- `load_program(bytes)` (R214, R215): the bytes verbatim from 0x200 up, or ProgramTooLarge and the machine unchanged. -/
def loadProgram (bytes : List Byte) (s : State) : State × Option Fault :=
  if bytes.length ≤ Config.maxProgram then (s.setRam (s.ram.load Config.progStart bytes), none)
  else (s, some (.programTooLarge bytes.length))

/-- `set_key(index, pressed)` (R41); the port carries a 4-bit index (D26). -/
def setKey (index : Fin 16) (pressed : Bool) (s : State) : State := { s with key := s.key.set index.val pressed }

/-- `framebuffer()` with the changed flag (R42). -/
def readFramebuffer (s : State) : Vector Bool 2048 × Bool := (s.fb, s.fbChanged)

/-- `delay_timer()` (R43). -/
def readDelayTimer (s : State) : Byte := s.dt

/-- `sound_timer()` (R43). -/
def readSoundTimer (s : State) : Byte := s.st

/-! ## Error codes -/

/-- `error_code` (R181); 0 stands for no error. -/
def errorCode : Option Fault → BitVec 3
  | none => 0
  | some (.ramOutOfRange _) => 1
  | some (.stackOverflow _) => 2
  | some (.stackUnderflow _) => 3
  | some (.framebufferOutOfRange _ _) => 4
  | some (.keypadIndexOutOfRange _) => 5
  | some (.programTooLarge _) => 6

/-- `error_info`, 17 bits (R181, R44); a position is packed `py*256 + px` (log 11). -/
def errorInfo : Option Fault → BitVec 17
  | none => 0
  | some (.ramOutOfRange a) => BitVec.ofNat 17 a
  | some (.stackOverflow sp) => BitVec.ofNat 17 sp
  | some (.stackUnderflow sp) => BitVec.ofNat 17 sp
  | some (.framebufferOutOfRange px py) => BitVec.ofNat 17 (py * 256 + px)
  | some (.keypadIndexOutOfRange k) => BitVec.ofNat 17 k
  | some (.programTooLarge len) => BitVec.ofNat 17 len

/-! ## The state a fatal error leaves

R190 bounds it: what the step would not have written keeps its value, and what it would have written, before or after the
failing access, is old or new, element by element. Which, is free (log 8). -/

/-- The pixels a DRW would write, as a framebuffer: each row whose byte is in RAM, each position on the screen. -/
def drawnPixels (m : Memory) (base x0 y0 n : Nat) (fb : Vector Bool 2048) : Vector Bool 2048 :=
  Vector.ofFn fun i : Fin 2048 =>
    let px := i.val % 64
    let py := i.val / 64
    if x0 ≤ px ∧ px < x0 + 8 ∧ y0 ≤ py ∧ py < y0 + n ∧ base + (py - y0) < Config.ramSize then
      fb[i.val] ^^ spriteBit (m.read (base + (py - y0))) (px - x0)
    else fb[i.val]

/-- Whether some pixel is on in the first framebuffer and off in the second: an XOR that turns an on pixel off (R141). -/
def pixelsTurnedOff (old new : Vector Bool 2048) : Bool :=
  (List.range 2048).any fun i => fbGet old i && !fbGet new i

/-- A framebuffer with each pixel old or new by a free choice. -/
def mixPixels (n : Nat) (old new : Vector Bool 2048) : Vector Bool 2048 :=
  Vector.ofFn fun j : Fin 2048 => if Config.residueIsNew n j.val then new[j.val] else old[j.val]

/-- `x[15]` of a faulted DRW: its old value, or 0, or 1 where a set bit meets an on pixel; DRW writes 0 at its start, and 1
only then (R141, R143, R146). -/
def residueFlag (n : Nat) (old : Byte) (hit : Bool) : Byte :=
  if Config.residueIsNew n 3000 then old else flagByte (Config.residueIsNew n 3001 && hit)

/-- The RAM bytes a store would write, those that exist, each old or new by a free choice. -/
def residueStore (n : Nat) (m : Memory) (a k : Nat) : List Byte → Memory
  | [] => m
  | b :: bs =>
    let m' := if a < Config.ramSize ∧ Config.residueIsNew n (4096 + k) then m.write a b else m
    residueStore n m' (a + 1) (k + 1) bs

/-- The registers and cells an instruction would write, each old or new by a free choice. A CALL, RET, SKP or SKNP that
raises has written nothing (R183, R184, R150), and no other instruction raises. -/
def residueOf (i : Instr) (s : State) : State :=
  match i with
  | .drw X Y N =>
    let fb := drawnPixels s.ram (s.effAddr 0) (s.drawX X) (s.drawY Y) N.toNat s.fb
    { s.setReg 15 (residueFlag s.draws (s.reg 15) (pixelsTurnedOff s.fb fb)) with fb := mixPixels s.draws s.fb fb }
  | .ldb X => s.setRam (residueStore s.draws s.ram (s.effAddr 0) 0 (bcdDigits (s.reg X)))
  | .ldxr X => s.setRam (residueStore s.draws s.ram (s.effAddr 0) 0 (s.regsThrough X))
  | .ldrx X =>
    { s with x := Vector.ofFn fun r : Fin 16 =>
        if r ≤ X ∧ s.effAddr r.val < Config.ramSize ∧ Config.residueIsNew s.draws r.val then s.ram.read (s.effAddr r.val)
        else s.reg r }
  | .cls | .ret | .jp _ | .call _ | .sei _ _ | .snei _ _ | .se _ _ | .ldi _ _ | .addi _ _ | .ld _ _ | .or _ _
  | .and _ _ | .xor _ _ | .add _ _ | .sub _ _ | .shr _ _ | .subn _ _ | .shl _ _ | .sne _ _ | .ldix _ | .jpa _
  | .rnd _ _ | .skp _ | .sknp _ | .rdt _ | .ldk _ | .sdt _ | .sst _ | .addix _ | .ldf _ | .unk _ => s

/-- What every fatal error leaves free beside that: each timer ticked or not, and the step's outputs; the machine is
faulted (R190). -/
def State.endFaulted (s : State) : State :=
  { s with
    dt := if Config.residueIsNew s.draws 5000 then tickTimer s.dt else s.dt
    st := if Config.residueIsNew s.draws 5001 then tickTimer s.st else s.st
    fbChanged := Config.residueIsNew s.draws 5002
    unknown := Config.residueUnknown s.draws
    faulted := true
    draws := s.draws + 1 }

/-- The state left by a step that raised a fatal error (R190): `pc` is advanced, or after a failed fetch possibly not. -/
def residue (s : State) : State :=
  match fetchWord s with
  | .error _ => (if Config.residueIsNew s.draws 5003 then s.setPc (s.pc + 2) else s).endFaulted
  | .ok w => (residueOf (decode w) s.beginStep).endFaulted

/-! ## The host's calls -/

/-- The outputs of a step (R36). -/
structure StepReport where
  fbChanged : Bool
  unknown : Option Word
  error : Option Fault
  deriving DecidableEq, Repr

/-- `step()` as the host calls it: the machine it is left with, and the step's outputs; or the refusal of a step on a
faulted machine (R192). -/
def hostStep (s : State) : Except Refusal (State × StepReport) :=
  match step s with
  | .next t => .ok (t, ⟨t.fbChanged, t.unknown, none⟩)
  | .fault e => .ok (residue s, ⟨(residue s).fbChanged, (residue s).unknown, some e⟩)
  | .refused r => .error r

/-- The operations that can change the machine (R40, R44: the `op` port). -/
inductive HostOp where
  | none
  | reset
  | load (bytes : List Byte)
  | step
  | setKey (index : Fin 16) (pressed : Bool)
  deriving DecidableEq, Repr

/-- One host operation (R40): the machine afterwards and the error it reports, if any. -/
def hostCall (op : HostOp) (s : State) : Except Refusal (State × Option Fault) :=
  match op with
  | .none => .ok (s, .none)
  | .reset => .ok (hostReset s, .none)
  | .load bytes => .ok (loadProgram bytes s)
  | .setKey index pressed => .ok (setKey index pressed s, .none)
  | .step =>
    match hostStep s with
    | .ok (t, r) => .ok (t, r.error)
    | .error r => .error r

/-- Operations in the order the host issues them (R59); a refused one ends the run. -/
def hostRun : List HostOp → State → Except Refusal State
  | [], s => .ok s
  | op :: ops, s =>
    match hostCall op s with
    | .ok (t, _) => hostRun ops t
    | .error r => .error r

end Sys2Proof.Machine
end

