-- ==== Sys2Proof/Safety.lean ====
section
/-! DEFINITION. The terms the statements use: the invariant of a running machine, what each instruction may write
(spec/10_state.md R22, R28 to R31; spec/20_memory.md R50), where it leaves `pc` (R24), and the list the stack stands for
(spec/41_control.md R131). Nothing of the machine calls these. -/

namespace Sys2Proof.Machine

/-- What holds of a machine that has not faulted: RAM in its canonical form, `sp` in 0..15 and `stack[0]` never written
(R29), `pc` within its reachable range (R25, R31), and every stored return address one a CALL can push (R132). -/
structure Inv (s : State) : Prop where
  ram_wf : s.ram.wf
  sp_le : s.sp.toNat ≤ 15
  pc_le : s.pc.toNat ≤ 0x10FE
  slots_le : ∀ k, (s.slot k).toNat ≤ 4096
  slot_zero : s.slot 0 = 0

/-- The registers an instruction may write, by the table of R22. -/
def writesReg (i : Instr) (q : Reg) : Bool :=
  match i with
  | .cls | .ret | .jp _ | .call _ | .ldix _ | .unk _ | .sei _ _ | .snei _ _ | .se _ _ | .sne _ _ | .jpa _ | .skp _
  | .sknp _ | .sdt _ | .sst _ | .addix _ | .ldf _ | .ldb _ | .ldxr _ => false
  | .ldi X _ | .rnd X _ | .addi X _ | .ld X _ | .or X _ | .and X _ | .xor X _ | .rdt X | .ldk X => q = X
  | .add X _ | .sub X _ | .subn X _ | .shr X _ | .shl X _ => q = X || q = 15
  | .drw _ _ _ => q = 15
  | .ldrx X => q ≤ X

/-- The RAM bytes an instruction stores to: three at `I` for LDB, X + 1 at `I` for LDXR (R50, R168, R169). -/
def storesTo (i : Instr) (s : State) (a : Nat) : Prop :=
  match i with
  | .ldb _ => s.effAddr 0 ≤ a ∧ a ≤ s.effAddr 2
  | .ldxr X => s.effAddr 0 ≤ a ∧ a ≤ s.effAddr X.val
  | .cls | .ret | .jp _ | .call _ | .sei _ _ | .snei _ _ | .se _ _ | .ldi _ _ | .addi _ _ | .ld _ _ | .or _ _
  | .and _ _ | .xor _ _ | .add _ _ | .sub _ _ | .shr _ _ | .subn _ _ | .shl _ _ | .sne _ _ | .ldix _ | .jpa _
  | .rnd _ _ | .drw _ _ _ | .skp _ | .sknp _ | .rdt _ | .ldk _ | .sdt _ | .sst _ | .addix _ | .ldf _ | .ldrx _
  | .unk _ => False

/-- LDIX, ADDIX and LDF write `I` (R28). -/
def writesI (i : Instr) : Prop :=
  (∃ n, i = .ldix n) ∨ (∃ X, i = .addix X) ∨ (∃ X, i = .ldf X)

/-- CALL and RET touch the stack and `sp` (R29). -/
def touchesStack (i : Instr) : Prop := (∃ n, i = .call n) ∨ i = .ret

/-- CLS and DRW write the framebuffer (R34). -/
def writesFb (i : Instr) : Prop := i = .cls ∨ ∃ X Y N, i = .drw X Y N

/-- The condition of a skip instruction; false for an instruction that is no skip (R125 to R128, R150, R151). -/
def skips (i : Instr) (s : State) : Bool :=
  match i with
  | .sei X KK => s.reg X = KK
  | .snei X KK => s.reg X ≠ KK
  | .se X Y => s.reg X = s.reg Y
  | .sne X Y => s.reg X ≠ s.reg Y
  | .skp X => s.keyDown (s.reg X).toNat
  | .sknp X => !s.keyDown (s.reg X).toNat
  | .cls | .ret | .jp _ | .call _ | .ldi _ _ | .addi _ _ | .ld _ _ | .or _ _ | .and _ _ | .xor _ _ | .add _ _
  | .sub _ _ | .shr _ _ | .subn _ _ | .shl _ _ | .ldix _ | .jpa _ | .rnd _ _ | .drw _ _ _ | .rdt _ | .ldk _ | .sdt _
  | .sst _ | .addix _ | .ldf _ | .ldb _ | .ldxr _ | .ldrx _ | .unk _ => false

/-- The value an instruction leaves in `pc`, as R24 says it of an instruction fetched from address `a`; `s` is the state
the instruction sees. -/
def pcAfter (i : Instr) (s : State) (a : Word) : Word :=
  match i with
  | .jp NNN | .call NNN => NNN.setWidth 16
  | .ret => s.slot s.sp.toNat
  | .jpa NNN => NNN.setWidth 16 + (s.reg 0).setWidth 16
  | .ldk _ => if ∀ k < 16, s.keyDown k = false then a else a + 2
  | .sei _ _ | .snei _ _ | .se _ _ | .sne _ _ | .skp _ | .sknp _ => if skips i s then a + 4 else a + 2
  | .cls | .ldi _ _ | .addi _ _ | .ld _ _ | .or _ _ | .and _ _ | .xor _ _ | .add _ _ | .sub _ _ | .shr _ _
  | .subn _ _ | .shl _ _ | .ldix _ | .rnd _ _ | .drw _ _ _ | .rdt _ | .sdt _ | .sst _ | .addix _ | .ldf _ | .ldb _
  | .ldxr _ | .ldrx _ | .unk _ => a + 2

/-- The return addresses held, the most recent first: `stack[sp]` down to `stack[1]` (R131). -/
def State.calls (s : State) : List Word := (List.range s.sp.toNat).reverse.map fun k => s.slot (k + 1)

/-- A timer's tick in the words of R156. -/
def ticked (t : Byte) : Byte := if t.toNat = 0 then 0 else BitVec.ofNat 8 (t.toNat - 1)

/-- Whether the framebuffer cell of column `px` and row `py` is on (R34). -/
def State.pixel (s : State) (px py : Nat) : Bool := fbGet s.fb (py * 64 + px)

/-- A DRW stays on the screen and in RAM: `x0 <= 56`, `y0 + N <= 32` and `I + N - 1 <= 4095`, or it has no row (R142). -/
def drawFits (X Y : Reg) (N : Nibble) (s : State) : Prop :=
  N = 0 ∨ ((s.reg X).toNat % 64 ≤ 56 ∧ (s.reg Y).toNat % 32 + N.toNat ≤ 32 ∧ s.I.toNat + N.toNat ≤ 4096)

/-- The sprite bit a DRW lays over the pixel (`px`, `py`), false outside the sprite: bit `7 - c` of the byte at `I + r`
(R141, R145). -/
def drawnBit (X Y : Reg) (N : Nibble) (s : State) (px py : Nat) : Bool :=
  let x0 := (s.reg X).toNat % 64
  let y0 := (s.reg Y).toNat % 32
  decide (x0 ≤ px ∧ px < x0 + 8 ∧ y0 ≤ py ∧ py < y0 + N.toNat) &&
    (s.ram.read (s.I.toNat + (py - y0))).getLsbD (7 - (px - x0))

/-- `t` is `s` but for the general registers. -/
def SameButRegs (s t : State) : Prop := t = { s with x := t.x }

/-- A run of `n` steps that meets no fatal error and no refusal: the runs the machine's claims are about. -/
def SafeRun (n : Nat) (s t : State) : Prop :=
  match n with
  | 0 => t = s
  | n + 1 => ∃ u, step s = .next u ∧ SafeRun n u t

end Sys2Proof.Machine
end

