-- ==== Sys2Proof/Certificates/Slice0/Obligations.lean ====
section
/-! DEFINITION. The statements about the machine, from the numbered rules of spec/. Each docstring names the rule or the
sentence it formalises; `[model's choice]` marks what rests on a decision of spec/92_eei_decisions.md or on a log entry. -/

open Sys2Proof Sys2Proof.Machine

/-! ## Encoding -/

/-- Words written out from the encodings of 30_encoding.md R90 decode to their instructions. [decision D5, log 12] -/
def Obligations.WrittenWordsDecode : Prop :=
  decode 0x00E0 = .cls ∧ decode 0x00EE = .ret ∧ decode 0x1ABC = .jp 0xABC ∧ decode 0x60C8 = .ldi 0 0xC8 ∧
  decode 0x8014 = .add 0 1 ∧ decode 0x82FE = .shl 2 15 ∧ decode 0xD125 = .drw 1 2 5 ∧ decode 0xE39E = .skp 3 ∧
  decode 0xF265 = .ldrx 2 ∧ decode 0x5121 = .unk 0x5121

/-- Every well-formed instruction is read back from its word, with every operand. [decision D5] -/
def Obligations.DecodeOfEncode : Prop := ∀ i, wellFormed i = true → decode (encode i) = i

/-- `Encode(Decode(w)) = w` for all w (the second sentence of R87, which the spec marks derived), and the decoder answers
only well-formed instructions. -/
def Obligations.EncodeOfDecode : Prop := ∀ w, encode (decode w) = w ∧ wellFormed (decode w) = true

/-- The unknown space of R86 is exact: a word decodes to unknown/data, carrying itself, exactly when R86 lists it.
[decision D5] -/
def Obligations.UnknownSpaceExact : Prop := ∀ w v, decode w = .unk v ↔ (isUnknownWord w = true ∧ v = w)

/-! ## The step -/

/-- R120: fetch, advance, decode, execute, tick; an error of the fetch or of the execution ends the step; a step on a
machine marked faulted is refused. -/
def Obligations.StepRunsDecodedInstruction : Prop :=
  ∀ s : State,
    (s.faulted = true → step s = .refused .machineFaulted) ∧
    (s.faulted = false → 4095 ≤ s.pc.toNat → step s = .fault (.ramOutOfRange (max s.pc.toNat 4096))) ∧
    (s.faulted = false → s.pc.toNat < 4095 →
      ∀ w : Word, w = s.ram.read s.pc.toNat ++ s.ram.read (s.pc.toNat + 1) →
        (∀ t, exec (decode w) { s with pc := s.pc + 2, fbChanged := false, unknown := none } = .next t →
          step s = .next { t with dt := ticked t.dt, st := ticked t.st }) ∧
        (∀ e, exec (decode w) { s with pc := s.pc + 2, fbChanged := false, unknown := none } = .fault e →
          step s = .fault e))

/-- R51: an access succeeds exactly at 0..4095 and otherwise raises RamOutOfRange with its address; so does the fetch. -/
def Obligations.RamAccessBounds : Prop :=
  ∀ (s : State) (a : Nat) (v : Byte),
    (a ≤ 4095 → readByte s.ram a = .ok (s.ram.read a) ∧ ∃ m, writeByte s.ram a v = .ok m) ∧
    (4095 < a → readByte s.ram a = .error (.ramOutOfRange a) ∧ writeByte s.ram a v = .error (.ramOutOfRange a)) ∧
    (s.pc.toNat < 4095 → fetchWord s = .ok (s.ram.read s.pc.toNat ++ s.ram.read (s.pc.toNat + 1))) ∧
    (s.pc.toNat = 4095 → fetchWord s = .error (.ramOutOfRange 4096)) ∧
    (4096 ≤ s.pc.toNat → fetchWord s = .error (.ramOutOfRange s.pc.toNat))

/-- A step is refused only on a faulted machine, and no instruction is refused (R192, R74; D23 for the refusal). -/
def Obligations.OnlyFaultedStepsRefused : Prop :=
  (∀ i s r, exec i s ≠ .refused r) ∧
  ∀ s r, step s = .refused r ↔ (s.faulted = true ∧ r = .machineFaulted)

/-- The errors an instruction can raise, by which instruction, with which information, and the code and the 17-bit
information the host gets (the table of R181, D22; a position is packed `py*256 + px`); the code of ProgramTooLarge, which no
instruction raises, and of no error. The overflow of a RET is log 10 and needs a stack pointer no run reaches; the length of
a program past 17 bits is log 11, of which nothing is said. -/
def Obligations.ErrorsByInstruction : Prop :=
  (∀ i s e, exec i s = .fault e →
    match e with
    | .ramOutOfRange a => 4096 ≤ a ∧ a ≤ 65550 ∧
        ((∃ X Y N, i = .drw X Y N) ∨ (∃ X, i = .ldb X) ∨ (∃ X, i = .ldxr X) ∨ (∃ X, i = .ldrx X)) ∧
        errorCode (some e) = 1 ∧ (errorInfo (some e)).toNat = a
    | .stackOverflow p => p = s.sp.toNat ∧ 15 ≤ p ∧ ((∃ n, i = .call n) ∨ (i = .ret ∧ 15 < p)) ∧
        errorCode (some e) = 2 ∧ (errorInfo (some e)).toNat = p
    | .stackUnderflow p => p = 0 ∧ s.sp = 0 ∧ i = .ret ∧ errorCode (some e) = 3 ∧ (errorInfo (some e)).toNat = p
    | .framebufferOutOfRange px py => ∃ X Y N, i = .drw X Y N ∧
        ((56 < (s.reg X).toNat % 64 ∧ px = 64 ∧ py = (s.reg Y).toNat % 32) ∨
         ((s.reg X).toNat % 64 ≤ 56 ∧ px = (s.reg X).toNat % 64 ∧ py = 32)) ∧
        errorCode (some e) = 4 ∧ (errorInfo (some e)).toNat = py * 256 + px
    | .keypadIndexOutOfRange k => 16 ≤ k ∧ k ≤ 255 ∧
        (∃ X, k = (s.reg X).toNat ∧ (i = .skp X ∨ i = .sknp X)) ∧
        errorCode (some e) = 5 ∧ (errorInfo (some e)).toNat = k
    | .programTooLarge _ => False) ∧
  (∀ len, errorCode (some (.programTooLarge len)) = 6 ∧
    (len < 131072 → (errorInfo (some (.programTooLarge len))).toNat = len)) ∧
  errorCode none = 0

/-! ## Register, arithmetic, logic, shift and random instructions -/

/-- LDI loads the immediate, ADDI adds it modulo 256 and records no carry (R100, R101). [decisions D6, D19] -/
def Obligations.ImmediateLoadAndAdd : Prop :=
  ∀ (s : State) (X : Reg) (KK : Byte),
    (∃ t, exec (.ldi X KK) s = .next t ∧ t.reg X = KK ∧ (∀ q, q ≠ X → t.reg q = s.reg q) ∧ SameButRegs s t) ∧
    (∃ t, exec (.addi X KK) s = .next t ∧ (t.reg X).toNat = ((s.reg X).toNat + KK.toNat) % 256 ∧
      (∀ q, q ≠ X → t.reg q = s.reg q) ∧ SameButRegs s t)

/-- LD (R102): `x[X] <- x[Y]`, no flag, no error. -/
def Obligations.RegisterLoad : Prop :=
  ∀ (s : State) (X Y : Reg),
    decode (word4 0x8 (regField X) (regField Y) 0x0) = .ld X Y ∧
    ∃ t, exec (.ld X Y) s = .next t ∧ t.reg X = s.reg Y ∧ (∀ q, q ≠ X → t.reg q = s.reg q) ∧ SameButRegs s t

/-- OR, AND and XOR act bit by bit on `x[X]` and `x[Y]` and leave the flags register alone unless it is the destination
(R103 to R105). [decision D19] -/
def Obligations.LogicBitwise : Prop :=
  ∀ (s : State) (X Y : Reg),
    (∃ t, exec (.or X Y) s = .next t ∧ (∀ k < 8, (t.reg X).getLsbD k = ((s.reg X).getLsbD k || (s.reg Y).getLsbD k)) ∧
      (∀ q, q ≠ X → t.reg q = s.reg q) ∧ SameButRegs s t) ∧
    (∃ t, exec (.and X Y) s = .next t ∧ (∀ k < 8, (t.reg X).getLsbD k = ((s.reg X).getLsbD k && (s.reg Y).getLsbD k)) ∧
      (∀ q, q ≠ X → t.reg q = s.reg q) ∧ SameButRegs s t) ∧
    (∃ t, exec (.xor X Y) s = .next t ∧ (∀ k < 8, (t.reg X).getLsbD k = ((s.reg X).getLsbD k ^^ (s.reg Y).getLsbD k)) ∧
      (∀ q, q ≠ X → t.reg q = s.reg q) ∧ SameButRegs s t)

/-- ADD (R106): the sum modulo 256, and `x[15]` 1 if the 9-bit sum exceeded 255, else 0. -/
def Obligations.AddSumAndCarry : Prop :=
  ∀ (s : State) (X Y : Reg), decode (word4 0x8 (regField X) (regField Y) 0x4) = .add X Y ∧
    (X ≠ 15 → ∃ t, exec (.add X Y) s = .next t ∧
      (t.reg X).toNat = ((s.reg X).toNat + (s.reg Y).toNat) % 256 ∧
      t.reg 15 = (if 255 < (s.reg X).toNat + (s.reg Y).toNat then 1 else 0) ∧
      (∀ q, q ≠ X → q ≠ 15 → t.reg q = s.reg q) ∧ SameButRegs s t)

/-- SUB (R107): `x[X] - x[Y]` modulo 256, and `x[15]` 1 if the first operand >= the second, else 0. -/
def Obligations.SubDifferenceAndNoBorrow : Prop :=
  ∀ (s : State) (X Y : Reg), decode (word4 0x8 (regField X) (regField Y) 0x5) = .sub X Y ∧
    (X ≠ 15 → ∃ t, exec (.sub X Y) s = .next t ∧
      ((t.reg X).toNat : Int) = ((s.reg X).toNat - (s.reg Y).toNat : Int) % 256 ∧
      t.reg 15 = (if (s.reg Y).toNat ≤ (s.reg X).toNat then 1 else 0) ∧
      (∀ q, q ≠ X → q ≠ 15 → t.reg q = s.reg q) ∧ SameButRegs s t)

/-- SUBN (R109): `x[Y] - x[X]` modulo 256 into `x[X]`, and `x[15]` 1 if the second operand >= the first, else 0. -/
def Obligations.SubnDifferenceAndNoBorrow : Prop :=
  ∀ (s : State) (X Y : Reg), decode (word4 0x8 (regField X) (regField Y) 0x7) = .subn X Y ∧
    (X ≠ 15 → ∃ t, exec (.subn X Y) s = .next t ∧
      ((t.reg X).toNat : Int) = ((s.reg Y).toNat - (s.reg X).toNat : Int) % 256 ∧
      t.reg 15 = (if (s.reg X).toNat ≤ (s.reg Y).toNat then 1 else 0) ∧
      (∀ q, q ≠ X → q ≠ 15 → t.reg q = s.reg q) ∧ SameButRegs s t)

/-- SHR (R108): `x[X]` div 2, and `x[15]` the old bit 0, whatever `Y` is. -/
def Obligations.ShiftRightByOne : Prop :=
  ∀ (s : State) (X Y : Reg), decode (word4 0x8 (regField X) (regField Y) 0x6) = .shr X Y ∧
    (X ≠ 15 → ∃ t, exec (.shr X Y) s = .next t ∧
      (t.reg X).toNat = (s.reg X).toNat / 2 ∧ (t.reg 15).toNat = (s.reg X).toNat % 2 ∧
      (∀ q, q ≠ X → q ≠ 15 → t.reg q = s.reg q) ∧ SameButRegs s t)

/-- SHL (R110): twice `x[X]` modulo 256, and `x[15]` the old bit 7, whatever `Y` is. -/
def Obligations.ShiftLeftByOne : Prop :=
  ∀ (s : State) (X Y : Reg), decode (word4 0x8 (regField X) (regField Y) 0xE) = .shl X Y ∧
    (X ≠ 15 → ∃ t, exec (.shl X Y) s = .next t ∧
      (t.reg X).toNat = (s.reg X).toNat * 2 % 256 ∧ (t.reg 15).toNat = (s.reg X).toNat / 128 ∧
      (∀ q, q ≠ X → q ≠ 15 → t.reg q = s.reg q) ∧ SameButRegs s t)

/-- With destination `X` = 15 each of the five flag writers completes and leaves in `x[15]` the flag if FLAG_WRITE_LAST, the
8-bit result if not (R113). [decision D20, log 1: for either value of the parameter] -/
def Obligations.FlagRegisterAsDestination : Prop :=
  ∀ (s : State) (Y : Reg),
    let a := (s.reg 15).toNat
    let b := (s.reg Y).toNat
    ∀ i flag result,
      (i = Instr.add 15 Y ∧ flag = (if 255 < a + b then 1 else 0) ∧ result = (a + b) % 256) ∨
      (i = Instr.sub 15 Y ∧ flag = (if b ≤ a then 1 else 0) ∧ result = (a + 256 - b) % 256) ∨
      (i = Instr.subn 15 Y ∧ flag = (if a ≤ b then 1 else 0) ∧ result = (b + 256 - a) % 256) ∨
      (i = Instr.shr 15 Y ∧ flag = a % 2 ∧ result = a / 2) ∨
      (i = Instr.shl 15 Y ∧ flag = a / 128 ∧ result = a * 2 % 256) →
      ∃ t, exec i s = .next t ∧ (t.reg 15).toNat = (if Config.flagWriteLast then flag else result) ∧
        (∀ q, q ≠ 15 → t.reg q = s.reg q) ∧ SameButRegs s t

/-- RND (R111): the mask of the `rnd` byte, so no bit outside `KK`; the next draw is another one. [decisions D6, D15, log 5:
the byte is a free value] -/
def Obligations.RandomMasked : Prop :=
  ∀ (s : State) (X : Reg) (KK : Byte), ∃ t, exec (.rnd X KK) s = .next t ∧
    t.reg X = Config.rnd s.draws &&& KK ∧ (∀ k, KK.getLsbD k = false → (t.reg X).getLsbD k = false) ∧
    (∀ q, q ≠ X → t.reg q = s.reg q) ∧ t = { s with x := t.x, draws := s.draws + 1 }

/-! ## Control -/

/-- JP sets `pc` to NNN; JPA to NNN + `x[0]`, an integer sum that never wraps (R121, R124). [decision D6 for JP] -/
def Obligations.JumpTargets : Prop :=
  ∀ (s : State) (NNN : Addr12),
    (∃ t, exec (.jp NNN) s = .next t ∧ t.pc.toNat = NNN.toNat ∧ t = { s with pc := t.pc }) ∧
    (∃ t, exec (.jpa NNN) s = .next t ∧ t.pc.toNat = NNN.toNat + (s.reg 0).toNat ∧ t = { s with pc := t.pc })

/-- CALL below 15 held addresses increments `sp`, stores the already advanced `pc` there and jumps; no other slot changes
(R122). [decision D8] -/
def Obligations.CallPushes : Prop :=
  ∀ (s : State) (NNN : Addr12), s.sp.toNat < 15 → ∃ t, exec (.call NNN) s = .next t ∧
    t.pc.toNat = NNN.toNat ∧ t.sp.toNat = s.sp.toNat + 1 ∧ t.slot t.sp.toNat = s.pc ∧
    (∀ k, k ≠ t.sp.toNat → t.slot k = s.slot k) ∧ t = { s with pc := t.pc, sp := t.sp, stack := t.stack }

/-- RET with an address held sets `pc` to `stack[sp]` and decrements `sp`; the slots keep their values (R123).
[decision D8] -/
def Obligations.RetPops : Prop :=
  ∀ s : State, 0 < s.sp.toNat → s.sp.toNat ≤ 15 → ∃ t, exec .ret s = .next t ∧
    t.pc = s.slot s.sp.toNat ∧ t.sp.toNat + 1 = s.sp.toNat ∧ t = { s with pc := t.pc, sp := t.sp }

/-- R183, R184: CALL at `sp` = 15 raises StackOverflow, RET at `sp` = 0 raises StackUnderflow, with `sp` recorded and before
either has written anything. -/
def Obligations.StackErrors : Prop :=
  ∀ (s : State) (NNN : Addr12),
    (s.sp = 15 → exec (.call NNN) s = .fault (.stackOverflow 15)) ∧
    (s.sp = 0 → exec .ret s = .fault (.stackUnderflow 0)) ∧
    residueOf (.call NNN) s = s ∧ residueOf .ret s = s

/-- R125 to R128: SEI, SNEI, SE and SNE advance `pc` by a further 2 when their condition holds, and do nothing else. -/
def Obligations.RegisterSkips : Prop :=
  ∀ (s : State) (X Y : Reg) (KK : Byte),
    decode (wordI 0x3 (regField X) KK) = .sei X KK ∧ decode (wordI 0x4 (regField X) KK) = .snei X KK ∧
    decode (word4 0x5 (regField X) (regField Y) 0) = .se X Y ∧ decode (word4 0x9 (regField X) (regField Y) 0) = .sne X Y ∧
    exec (.sei X KK) s = .next (if s.reg X = KK then { s with pc := s.pc + 2 } else s) ∧
    exec (.snei X KK) s = .next (if s.reg X ≠ KK then { s with pc := s.pc + 2 } else s) ∧
    exec (.se X Y) s = .next (if s.reg X = s.reg Y then { s with pc := s.pc + 2 } else s) ∧
    exec (.sne X Y) s = .next (if s.reg X ≠ s.reg Y then { s with pc := s.pc + 2 } else s)

/-- R129: a step on a word of the unknown space reports it, leaves `pc` past it, ticks the timers and changes nothing else. -/
def Obligations.UnknownWordStep : Prop :=
  ∀ (s : State) (w : Word),
    exec (.unk w) s = .next { s with unknown := some w } ∧
    (s.faulted = false → s.pc.toNat < 4095 → s.ram.read s.pc.toNat ++ s.ram.read (s.pc.toNat + 1) = w →
      isUnknownWord w = true →
      step s = .next { s with pc := s.pc + 2, dt := ticked s.dt, st := ticked s.st, fbChanged := false, unknown := some w })

/-- R24: where each instruction leaves `pc`, of an instruction fetched from `a` (so that it sees `pc` = a + 2). -/
def Obligations.NextPcTable : Prop :=
  ∀ (i : Instr) (s t : State) (a : Word), s.pc = a + 2 → exec i s = .next t → t.pc = pcAfter i s a

/-- The stack contract (R131, which the spec marks derived): over every instruction the machine's stack is a list of return
addresses on which CALL pushes the advanced `pc` and RET pops into `pc`, and which nothing else touches. [decision D8] -/
def Obligations.StackIsLastInFirstOut : Prop :=
  ∀ (i : Instr) (s t : State), s.sp.toNat ≤ 15 → exec i s = .next t →
    t.calls.length = t.sp.toNat ∧ t.sp.toNat ≤ 15 ∧
    ((∃ n, i = .call n) → t.calls = s.pc :: s.calls) ∧
    (i = .ret → s.calls = t.pc :: t.calls) ∧
    (¬ touchesStack i → t.calls = s.calls)

/-! ## Display -/

/-- CLS turns all 2048 cells off and leaves every register (R140). [decision D6; `fb_changed` by R37, D14] -/
def Obligations.ClearScreen : Prop :=
  ∀ s : State, ∃ t, exec .cls s = .next t ∧ (∀ i < 2048, fbGet t.fb i = false) ∧
    t = { s with fb := t.fb, fbChanged := t.fbChanged, draws := s.draws + 1 }

/-- A DRW that fits completes (R142): every pixel is XORed with the sprite bit laid over it, and `x[15]` is 1 exactly when
some pixel went from on to off (R141, R143); one that does not fit raises an error. [decisions D11, D12, D21] -/
def Obligations.DrawXorsSprite : Prop :=
  ∀ (s : State) (X Y : Reg) (N : Nibble),
    (drawFits X Y N s → ∃ t, exec (.drw X Y N) s = .next t ∧
      (∀ px < 64, ∀ py < 32, t.pixel px py = (s.pixel px py ^^ drawnBit X Y N s px py)) ∧
      (t.reg 15 = 0 ∨ t.reg 15 = 1) ∧
      (t.reg 15 = 1 ↔ ∃ px < 64, ∃ py < 32, s.pixel px py = true ∧ t.pixel px py = false) ∧
      (∀ q, q ≠ 15 → t.reg q = s.reg q) ∧
      t = { s with x := t.x, fb := t.fb, fbChanged := t.fbChanged, draws := s.draws + 1 }) ∧
    (¬ drawFits X Y N s → ∃ e, exec (.drw X Y N) s = .fault e)

/-- The position a DRW past an edge reports (R142, R146, R181): (64, y0) when x0 > 56, else (x0, 32), when the rows before it
are in RAM. [decisions D11, D22, D31] -/
def Obligations.DrawPastEdgeRaises : Prop :=
  ∀ (s : State) (X Y : Reg) (N : Nibble),
    (N ≠ 0 → 56 < (s.reg X).toNat % 64 → s.I.toNat ≤ 4095 →
      exec (.drw X Y N) s = .fault (.framebufferOutOfRange 64 ((s.reg Y).toNat % 32))) ∧
    ((s.reg X).toNat % 64 ≤ 56 → 32 < (s.reg Y).toNat % 32 + N.toNat →
      s.I.toNat + (32 - (s.reg Y).toNat % 32) ≤ 4095 →
      exec (.drw X Y N) s = .fault (.framebufferOutOfRange ((s.reg X).toNat % 64) 32))

/-- DRW with `N` = 0 resets `x[15]` and touches no pixel and no RAM, whatever the coordinates and `I` are (R144).
[decision D13; its `fb_changed` is open, R37] -/
def Obligations.DrawNoRows : Prop :=
  ∀ (s : State) (X Y : Reg), ∃ t, exec (.drw X Y 0) s = .next t ∧ t.reg 15 = 0 ∧ (∀ q, q ≠ 15 → t.reg q = s.reg q) ∧
    t = { s with x := t.x, fbChanged := t.fbChanged, draws := s.draws + 1 }

/-- XOR self-cancel (R147 (a), R141): the same sprite drawn again at the same place gives the framebuffer back, and the second
draw collides exactly where the sprite has a set bit over a pixel that was off before the first: from an all-off screen, when
it has a set bit at all. The first draw overwrites register 15, so with a coordinate in register 15 the place is the same
only if the new value names it. [decisions D11, D12] -/
def Obligations.DrawTwiceCancels : Prop :=
  ∀ (s t u : State) (X Y : Reg) (N : Nibble),
    exec (.drw X Y N) s = .next t → exec (.drw X Y N) t = .next u →
    (X ≠ 15 ∨ (t.reg X).toNat % 64 = (s.reg X).toNat % 64) → (Y ≠ 15 ∨ (t.reg Y).toNat % 32 = (s.reg Y).toNat % 32) →
    (∀ px < 64, ∀ py < 32, u.pixel px py = s.pixel px py) ∧
    (u.reg 15 = 1 ↔ ∃ px < 64, ∃ py < 32, s.pixel px py = false ∧ drawnBit X Y N s px py = true) ∧
    ((∀ px < 64, ∀ py < 32, s.pixel px py = false) →
      (u.reg 15 = 1 ↔ ∃ px < 64, ∃ py < 32, drawnBit X Y N s px py = true))

/-- `fb_changed` after an instruction of a step that begins with it cleared: 0 unless CLS or DRW; 1 when CLS or DRW changed a
cell (R37). [decision D14, log 6: with no cell changed it is a free value, of which nothing is said] -/
def Obligations.FramebufferChangedFlag : Prop :=
  ∀ (i : Instr) (s t : State), s.fbChanged = false → exec i s = .next t →
    (¬ writesFb i → t.fbChanged = false) ∧
    (writesFb i → (∃ k < 2048, fbGet t.fb k ≠ fbGet s.fb k) → t.fbChanged = true)

/-- R182: the accesses that raise RamOutOfRange, with the first offending address: the fetch, DRW at a row it reaches, LDB,
LDXR and LDRX. -/
def Obligations.RamOutOfRangeCauses : Prop :=
  ∀ (s : State) (X Y : Reg) (N : Nibble),
    (4095 ≤ s.pc.toNat → fetchWord s = .error (.ramOutOfRange (max s.pc.toNat 4096))) ∧
    (4095 < s.I.toNat + 2 → exec (.ldb X) s = .fault (.ramOutOfRange (max s.I.toNat 4096))) ∧
    (4095 < s.I.toNat + X.val → exec (.ldxr X) s = .fault (.ramOutOfRange (max s.I.toNat 4096))) ∧
    (4095 < s.I.toNat + X.val → exec (.ldrx X) s = .fault (.ramOutOfRange (max s.I.toNat 4096))) ∧
    (4095 < s.I.toNat → N ≠ 0 → exec (.drw X Y N) s = .fault (.ramOutOfRange s.I.toNat)) ∧
    (s.I.toNat ≤ 4095 → 4096 < s.I.toNat + N.toNat →
      (s.reg X).toNat % 64 ≤ 56 → (s.reg Y).toNat % 32 + (4096 - s.I.toNat) ≤ 32 →
      exec (.drw X Y N) s = .fault (.ramOutOfRange 4096))

/-! ## Keypad and timers -/

/-- SKP skips when the key whose index is the value of `x[X]` is down, SKNP when it is up; a value above 15 raises
KeypadIndexOutOfRange with that value (R150, R151, R186). [decisions D6, D16] -/
def Obligations.KeySkips : Prop :=
  ∀ (s : State) (X : Reg),
    ((s.reg X).toNat ≤ 15 →
      exec (.skp X) s = .next (if s.keyDown (s.reg X).toNat = true then { s with pc := s.pc + 2 } else s) ∧
      exec (.sknp X) s = .next (if s.keyDown (s.reg X).toNat = false then { s with pc := s.pc + 2 } else s)) ∧
    (15 < (s.reg X).toNat →
      exec (.skp X) s = .fault (.keypadIndexOutOfRange (s.reg X).toNat) ∧
      exec (.sknp X) s = .fault (.keypadIndexOutOfRange (s.reg X).toNat))

/-- R152: LDK with no key down rewinds `pc` by 2 and changes nothing else; with a key down it stores the lowest one. -/
def Obligations.BlockForKey : Prop :=
  ∀ (s : State) (X : Reg), decode (wordI 0xF (regField X) 0x0A) = .ldk X ∧
    ((∀ k < 16, s.keyDown k = false) → exec (.ldk X) s = .next { s with pc := s.pc - 2 }) ∧
    (∀ k < 16, s.keyDown k = true → (∀ j < k, s.keyDown j = false) →
      ∃ t, exec (.ldk X) s = .next t ∧ (t.reg X).toNat = k ∧ (∀ q, q ≠ X → t.reg q = s.reg q) ∧ SameButRegs s t)

/-- RDT reads `dt`, SDT and SST write `dt` and `st` (R153 to R155). [decision D6] -/
def Obligations.TimerMoves : Prop :=
  ∀ (s : State) (X : Reg),
    (∃ t, exec (.rdt X) s = .next t ∧ t.reg X = s.dt ∧ (∀ q, q ≠ X → t.reg q = s.reg q) ∧ SameButRegs s t) ∧
    exec (.sdt X) s = .next { s with dt := s.reg X } ∧
    exec (.sst X) s = .next { s with st := s.reg X }

/-- The tick ends every completed step (R156, D9): each timer is one less, or 0, than it was before the step, or than the
value SDT or SST has just set (R157). -/
def Obligations.StepTicksTimers : Prop :=
  ∀ s t : State, step s = .next t → ∃ w, fetchWord s = .ok w ∧
    (∀ X, decode w = .sdt X → t.dt.toNat = (s.reg X).toNat - 1) ∧
    ((∀ X, decode w ≠ .sdt X) → t.dt.toNat = s.dt.toNat - 1) ∧
    (∀ X, decode w = .sst X → t.st.toNat = (s.reg X).toNat - 1) ∧
    ((∀ X, decode w ≠ .sst X) → t.st.toNat = s.st.toNat - 1)

/-! ## Index register and memory -/

/-- LDIX loads NNN; ADDIX adds modulo 65536 and leaves the flags register (R165, R166). [decisions D6, D17] -/
def Obligations.IndexLoadAndAdd : Prop :=
  ∀ (s : State) (NNN : Addr12) (X : Reg),
    (∃ t, exec (.ldix NNN) s = .next t ∧ t.I.toNat = NNN.toNat ∧ t = { s with I := t.I }) ∧
    (∃ t, exec (.addix X) s = .next t ∧ t.I.toNat = (s.I.toNat + (s.reg X).toNat) % 65536 ∧ t = { s with I := t.I })

/-- LDF points `I` at FONT_BASE + 5 * x[X], the register value whole (R167). [decisions D3, D34, log 2: for every FONT_BASE] -/
def Obligations.IndexAtGlyph : Prop :=
  ∀ (s : State) (X : Reg), ∃ t, exec (.ldf X) s = .next t ∧
    t.I.toNat = Config.fontBase.val + 5 * (s.reg X).toNat ∧ t = { s with I := t.I }

/-- R168: LDB stores hundreds, tens and ones at `I`, `I+1`, `I+2`, and no other byte; it completes only if `I <= 4093`. -/
def Obligations.DecimalDigitsStored : Prop :=
  ∀ (s : State) (X : Reg), s.ram.wf → decode (wordI 0xF (regField X) 0x33) = .ldb X ∧
    (s.I.toNat ≤ 4093 → ∃ t, exec (.ldb X) s = .next t ∧
      (t.ram.read s.I.toNat).toNat = (s.reg X).toNat / 100 ∧
      (t.ram.read (s.I.toNat + 1)).toNat = (s.reg X).toNat / 10 % 10 ∧
      (t.ram.read (s.I.toNat + 2)).toNat = (s.reg X).toNat % 10 ∧
      (∀ a, a < s.I.toNat ∨ s.I.toNat + 2 < a → t.ram.read a = s.ram.read a) ∧
      t = { s with ram := t.ram }) ∧
    (4093 < s.I.toNat → exec (.ldb X) s = .fault (.ramOutOfRange (max s.I.toNat 4096)))

/-- LDXR stores `x[0]`..`x[X]`, inclusive, from `I` up, and no other byte; `I` and the registers are unchanged (R169).
[decision D18] -/
def Obligations.RegistersDumped : Prop :=
  ∀ (s : State) (X : Reg), s.ram.wf → s.I.toNat + X.val ≤ 4095 → ∃ t, exec (.ldxr X) s = .next t ∧
    (∀ q, q ≤ X → t.ram.read (s.I.toNat + q.val) = s.reg q) ∧
    (∀ a, a < s.I.toNat ∨ s.I.toNat + X.val < a → t.ram.read a = s.ram.read a) ∧
    t = { s with ram := t.ram }

/-- LDRX loads `x[0]`..`x[X]`, inclusive, from `I` up; registers above `X` and `I` are unchanged (R170). [decision D18] -/
def Obligations.RegistersLoaded : Prop :=
  ∀ (s : State) (X : Reg), s.I.toNat + X.val ≤ 4095 → ∃ t, exec (.ldrx X) s = .next t ∧
    (∀ q, q ≤ X → t.reg q = s.ram.read (s.I.toNat + q.val)) ∧ (∀ q, X < q → t.reg q = s.reg q) ∧ SameButRegs s t

/-- The round trip of R170 and 95_test_vectors.md S7: registers dumped, whatever happens to them meanwhile, are restored by a
load at the same `I` from the same memory. [decision D18, conflict C3] -/
def Obligations.DumpThenLoadRestores : Prop :=
  ∀ (s t u : State) (X : Reg), s.ram.wf → exec (.ldxr X) s = .next t → u.ram = t.ram → u.I = t.I →
    ∃ v, exec (.ldrx X) u = .next v ∧ (∀ q, q ≤ X → v.reg q = s.reg q) ∧ (∀ q, X < q → v.reg q = u.reg q)

/-- A byte a step stores where the next instruction lies is the byte the next step fetches, for LDXR and for LDB, in either
half of the word or in both, and a half not stored to is what RAM held (R62, which the spec marks derived). -/
def Obligations.StoreSeenByFetch : Prop :=
  ∀ (s t : State) (v w : Word), s.ram.wf → fetchWord s = .ok v → step s = .next t → fetchWord t = .ok w →
    (∀ X, decode v = .ldxr X → ∀ q, q ≤ X →
      (t.pc.toNat = s.I.toNat + q.val → highByte w = s.reg q) ∧
      (t.pc.toNat + 1 = s.I.toNat + q.val → lowByte w = s.reg q)) ∧
    (∀ X, decode v = .ldb X → ∀ k d, [(s.reg X).toNat / 100, (s.reg X).toNat / 10 % 10, (s.reg X).toNat % 10][k]? = some d →
      (t.pc.toNat = s.I.toNat + k → (highByte w).toNat = d) ∧
      (t.pc.toNat + 1 = s.I.toNat + k → (lowByte w).toNat = d)) ∧
    (¬ storesTo (decode v) s t.pc.toNat → highByte w = s.ram.read t.pc.toNat) ∧
    (¬ storesTo (decode v) s (t.pc.toNat + 1) → lowByte w = s.ram.read (t.pc.toNat + 1))

/-! ## What an instruction leaves unchanged -/

/-- Frame of the registers, all instructions: only those the table of R22 lets it write; in particular `x[15]` by R26.
[decision D19] -/
def Obligations.RegisterFrame : Prop :=
  ∀ (i : Instr) (s t : State) (q : Reg), exec i s = .next t → writesReg i q = false → t.reg q = s.reg q

/-- Frame of RAM, all instructions: every byte outside those stored to reads as before, and an instruction that stores
nothing leaves RAM as it is (R50, R168, R169). -/
def Obligations.RamFrame : Prop :=
  ∀ (i : Instr) (s t : State), exec i s = .next t →
    ((∀ a, ¬ storesTo i s a) → ∀ a, t.ram.read a = s.ram.read a) ∧
    (s.ram.wf → ∀ a, ¬ storesTo i s a → t.ram.read a = s.ram.read a)

/-- Frame of the special state, all instructions: `I` only by LDIX, ADDIX, LDF (R28); stack and `sp` only by CALL and RET (R29);
`dt` only by SDT and `st` only by SST (R30); the framebuffer only by CLS and DRW (R34, R50); the `unknown` output only by UNK
(R188, D30); the keypad and the faulted mark by none (R35, R190). -/
def Obligations.SpecialStateFrame : Prop :=
  ∀ (i : Instr) (s t : State), exec i s = .next t →
    (¬ writesI i → t.I = s.I) ∧
    (¬ touchesStack i → t.sp = s.sp ∧ t.stack = s.stack) ∧
    ((∀ X, i ≠ .sdt X) → t.dt = s.dt) ∧
    ((∀ X, i ≠ .sst X) → t.st = s.st) ∧
    (¬ writesFb i → t.fb = s.fb ∧ t.fbChanged = s.fbChanged) ∧
    ((∀ w, i ≠ .unk w) → t.unknown = s.unknown) ∧
    t.key = s.key ∧ t.faulted = s.faulted

/-! ## Invariants -/

/-- The invariant holds after reset. -/
def Obligations.InvariantAtReset : Prop := Inv State.reset

/-- Every step keeps the invariant: RAM canonical, `sp` in 0..15 with `stack[0]` unwritten (R29), `pc` at most 0x10FE (R25,
R31), return addresses at most 4096 (R132). [the ranges are marked derived by the spec; the canonical form is log 9] -/
def Obligations.StepKeepsInvariant : Prop := ∀ s t : State, Inv s → step s = .next t → Inv t

/-- Every host operation, a failing step too, keeps RAM in its canonical form and `sp` in 0..15. [log 8, log 9] -/
def Obligations.HostCallsKeepRamCanonical : Prop :=
  ∀ (op : HostOp) (s t : State) (e : Option Fault), s.ram.wf → s.sp.toNat ≤ 15 → hostCall op s = .ok (t, e) →
    t.ram.wf ∧ t.sp.toNat ≤ 15

/-- The keypad is written by `set_key` alone, which writes one flag and nothing else (R35, R41). [decision D26] -/
def Obligations.OnlySetKeyWritesKeypad : Prop :=
  (∀ (op : HostOp) (s t : State) (e : Option Fault), hostCall op s = .ok (t, e) →
    (∀ k b, op ≠ .setKey k b) → t.key = s.key) ∧
  ∀ (k : Fin 16) (b : Bool) (s : State),
    (setKey k b s).keyDown k.val = b ∧ (∀ j, j ≠ k.val → (setKey k b s).keyDown j = s.keyDown j) ∧
    setKey k b s = { s with key := (setKey k b s).key }

/-! ## Host operations -/

/-- R211: what `reset` leaves, on any machine: registers, `I`, `sp`, stack, timers and framebuffer 0, `pc` 0x200, the font
at FONT_BASE, the faulted mark cleared. -/
def Obligations.ResetOperation : Prop :=
  ∀ s : State, s.ram.wf →
    (∀ r, (hostReset s).reg r = 0) ∧ (hostReset s).I = 0 ∧ (hostReset s).pc = 0x200 ∧ (hostReset s).sp = 0 ∧
    (∀ k, (hostReset s).slot k = 0) ∧ (hostReset s).dt = 0 ∧ (hostReset s).st = 0 ∧
    (∀ i < 2048, fbGet (hostReset s).fb i = false) ∧
    (∀ k, k < 80 → (hostReset s).ram.read (Config.fontBase.val + k) = (Config.fontData[k]?).getD 0) ∧
    (hostReset s).faulted = false

/-- RAM outside the font and the keypad on reset (R212, R213): cleared if RESET_CLEARS_RAM and kept if not; the keypad kept.
[decision D24, log 4: for either value of the parameter] -/
def Obligations.ResetRamAndKeypad : Prop :=
  ∀ (s : State) (a : Nat), s.ram.wf → a < 4096 → a < Config.fontBase.val ∨ Config.fontBase.val + 80 ≤ a →
    (hostReset s).ram.read a = (if Config.resetClearsRam then 0 else s.ram.read a) ∧ (hostReset s).key = s.key

/-- Construction leaves every element 0, the font region and `pc` too (R210). [decision D2] -/
def Obligations.ConstructionIsZero : Prop :=
  (∀ a, State.construct.ram.read a = 0) ∧ State.construct.ram.wf ∧ State.construct.pc = 0 ∧ State.construct.I = 0 ∧
  State.construct.sp = 0 ∧ (∀ r, State.construct.reg r = 0) ∧ (∀ k, State.construct.slot k = 0) ∧
  State.construct.dt = 0 ∧ State.construct.st = 0 ∧ (∀ i, fbGet State.construct.fb i = false) ∧
  (∀ k, State.construct.keyDown k = false) ∧ State.construct.faulted = false

/-- R216: after construct, `reset`, `load_program` and any `set_key` calls the state is exactly registers, `I`, `sp`, stack,
timers, framebuffer 0, `pc` 0x200, the font at FONT_BASE, the program at 0x200 and 0 everywhere else, and the keypad as
the host set it; the first word executed is the image's first two bytes, big-endian. Both values of RESET_CLEARS_RAM give
this state. -/
def Obligations.BootSequence : Prop :=
  ∀ (bytes : List Byte) (keys : List (Fin 16 × Bool)), bytes.length ≤ 3584 →
    ∃ t, hostRun ([.reset, .load bytes] ++ keys.map fun p => .setKey p.1 p.2) State.construct = .ok t ∧
      (∀ r, t.reg r = 0) ∧ t.I = 0 ∧ t.pc = 0x200 ∧ t.sp = 0 ∧ (∀ k, t.slot k = 0) ∧ t.dt = 0 ∧ t.st = 0 ∧
      (∀ i < 2048, fbGet t.fb i = false) ∧
      t.key = keys.foldl (fun m p => m.set p.1.val p.2) (Vector.replicate 16 false) ∧
      (∀ k, k < 80 → t.ram.read (Config.fontBase.val + k) = (Config.fontData[k]?).getD 0) ∧
      (∀ k, k < bytes.length → t.ram.read (0x200 + k) = (bytes[k]?).getD 0) ∧
      (∀ a, a < Config.fontBase.val ∨ Config.fontBase.val + 80 ≤ a → a < 0x200 ∨ 0x200 + bytes.length ≤ a →
        t.ram.read a = 0) ∧
      (∀ b0 b1 rest, bytes = b0 :: b1 :: rest → fetchWord t = .ok (b0 ++ b1))

/-- `load_program` writes the bytes verbatim from 0x200 up and nothing else (R214). [decision D27] -/
def Obligations.ProgramLoaded : Prop :=
  ∀ (s : State) (bytes : List Byte), s.ram.wf → bytes.length ≤ 3584 →
    (loadProgram bytes s).2 = none ∧
    (∀ k, k < bytes.length → (loadProgram bytes s).1.ram.read (0x200 + k) = (bytes[k]?).getD 0) ∧
    (∀ a, a < 0x200 ∨ 0x200 + bytes.length ≤ a → (loadProgram bytes s).1.ram.read a = s.ram.read a) ∧
    (loadProgram bytes s).1 = { s with ram := (loadProgram bytes s).1.ram }

/-- R187, R215: a program longer than 3584 bytes is answered with ProgramTooLarge, and the machine, its faulted mark too, is
unchanged; one of exactly 3584 bytes is no error. -/
def Obligations.ProgramTooLargeReported : Prop :=
  ∀ (s : State) (bytes : List Byte),
    (3584 < bytes.length → loadProgram bytes s = (s, some (.programTooLarge bytes.length))) ∧
    (bytes.length = 3584 → (loadProgram bytes s).2 = none)

/-- What a step reports to the host (R36): after a completed step its outputs and no error; after a fatal error that error,
with the machine left as R190 bounds it. It is faulted; `I`, `sp`, the stack and the keypad keep their values; each timer is
ticked or not. After a failed fetch `pc` is old or old + 2 and registers, RAM and framebuffer keep their values. After a
failed execution `pc` is old + 2; registers and bytes the instruction does not write keep their values, and so do all cells
unless it is a DRW; each register of LDRX, each byte of LDB and LDXR and each pixel of DRW is old or new; and `x[15]` of DRW is
old, 0, or 1 if a set bit of the sprite meets an on pixel. [decision D23, log 8] -/
def Obligations.FaultResidueBounds : Prop :=
  (∀ s t : State, step s = .next t → hostStep s = .ok (t, ⟨t.fbChanged, t.unknown, none⟩)) ∧
  (∀ (s : State) (e : Fault), step s = .fault e → ∃ t r, hostStep s = .ok (t, r) ∧ r.error = some e) ∧
  ∀ (s t : State) (r : StepReport) (e : Fault), s.ram.wf → hostStep s = .ok (t, r) → r.error = some e →
    step s = .fault e ∧ t.faulted = true ∧ t.I = s.I ∧ t.sp = s.sp ∧ t.stack = s.stack ∧ t.key = s.key ∧
    (t.dt = s.dt ∨ t.dt = ticked s.dt) ∧ (t.st = s.st ∨ t.st = ticked s.st) ∧
    ((∀ w, fetchWord s ≠ .ok w) → (t.pc = s.pc ∨ t.pc = s.pc + 2) ∧ t.x = s.x ∧ t.ram = s.ram ∧ t.fb = s.fb) ∧
    ∀ w, fetchWord s = .ok w → t.pc = s.pc + 2 ∧
      (∀ q, writesReg (decode w) q = false → t.reg q = s.reg q) ∧
      (∀ a, ¬ storesTo (decode w) s a → t.ram.read a = s.ram.read a) ∧
      ((∀ X Y N, decode w ≠ .drw X Y N) → t.fb = s.fb) ∧
      (∀ X, decode w = .ldrx X → ∀ q, q ≤ X → t.reg q = s.reg q ∨
        (s.I.toNat + q.val ≤ 4095 ∧ t.reg q = s.ram.read (s.I.toNat + q.val))) ∧
      (∀ X, decode w = .ldxr X → ∀ q, q ≤ X → t.ram.read (s.I.toNat + q.val) = s.ram.read (s.I.toNat + q.val) ∨
        (s.I.toNat + q.val ≤ 4095 ∧ t.ram.read (s.I.toNat + q.val) = s.reg q)) ∧
      (∀ X, decode w = .ldb X →
        ∀ k d, [(s.reg X).toNat / 100, (s.reg X).toNat / 10 % 10, (s.reg X).toNat % 10][k]? = some d →
          t.ram.read (s.I.toNat + k) = s.ram.read (s.I.toNat + k) ∨
          (s.I.toNat + k ≤ 4095 ∧ (t.ram.read (s.I.toNat + k)).toNat = d)) ∧
      (∀ X Y N, decode w = .drw X Y N →
        (∀ px < 64, ∀ py < 32, t.pixel px py = s.pixel px py ∨
          t.pixel px py = (s.pixel px py ^^ drawnBit X Y N s px py)) ∧
        (t.reg 15 = s.reg 15 ∨ t.reg 15 = 0 ∨ (t.reg 15 = 1 ∧
          ∃ px < 64, ∃ py < 32, s.pixel px py = true ∧ drawnBit X Y N s px py = true)))

/-- A faulted machine: `step` is refused, `reset` clears the mark, `set_key` and `load_program` do not (R192). [decision D23] -/
def Obligations.FaultedUntilReset : Prop :=
  ∀ (s : State) (bytes : List Byte) (k : Fin 16) (b : Bool), s.faulted = true →
    hostCall .step s = .error .machineFaulted ∧ (hostReset s).faulted = false ∧
    (loadProgram bytes s).1.faulted = true ∧ (setKey k b s).faulted = true

/-- A jump to its own address parks the machine (R133, R121): every step leaves all but the timers and the step's outputs as they were.
[decisions D6, D28] -/
def Obligations.JumpToSelfParks : Prop :=
  ∀ (s : State) (NNN : Addr12), s.faulted = false → s.pc.toNat < 4095 → s.pc.toNat = NNN.toNat →
    s.ram.read s.pc.toNat ++ s.ram.read (s.pc.toNat + 1) = wordA 0x1 NNN →
    step s = .next { s with dt := ticked s.dt, st := ticked s.st, fbChanged := false, unknown := none }
end

