-- ==== Sys2Proof/Laws/Memory.lean ====
section
/-! SUPPORT. The laws of RAM: a read after a write, the canonical form kept by every operation, and one lemma each for what
`readBytes`, `writeBytes` and `Memory.load` can do. -/

namespace Sys2Proof.Machine

/-! ### Single bytes -/

theorem Memory.read_insert (m : Memory) (a b : Nat) (v : Byte) :
    (m.insert a v).read b = if b = a then v else m.read b := by
  induction m with
  | nil => by_cases hb : b = a <;> simp [Memory.insert, Memory.read, hb, eq_comm (a := a)]
  | cons c rest ih =>
    unfold Memory.insert
    by_cases h1 : a < c.1
    · by_cases hb : b = a <;> simp [h1, Memory.read, hb, eq_comm (a := a)]
    · by_cases h2 : c.1 = a
      · by_cases hb : b = a <;> simp [h2, Memory.read, hb, eq_comm (a := a)]
      · by_cases hb : c.1 = b
        · subst hb; simp [h1, h2, Memory.read]
        · simp [h1, h2, Memory.read, hb, ih]

theorem Memory.read_erase (m : Memory) (a b : Nat) (h : m.Pairwise (fun c d => c.1 < d.1)) :
    (m.erase a).read b = if b = a then Memory.unlisted a else m.read b := by
  induction m with
  | nil => by_cases hb : b = a <;> simp [Memory.erase, Memory.read, hb]
  | cons c rest ih =>
    rw [List.pairwise_cons] at h
    have ih := ih h.2
    unfold Memory.erase at ih ⊢
    by_cases hc : c.1 = a
    · by_cases hb : b = a
      · simp [hc, hb] at ih ⊢; exact ih
      · simp [hc, hb, Memory.read, Ne.symm hb] at ih ⊢; exact ih
    · by_cases hb : c.1 = b
      · have : b ≠ a := fun e => hc (hb.trans e)
        simp [Memory.read, hb, this]
      · simp [hc, Memory.read, hb, ih]

/-- A byte reads as what was last written to it, and every other byte is unchanged (R56). -/
theorem Memory.read_write (m : Memory) (a b : Nat) (v : Byte) (h : m.wf) :
    (m.write a v).read b = if b = a then v else m.read b := by
  unfold Memory.write
  split
  · next e => rw [Memory.read_erase m a b h.1, ← e]
  · exact Memory.read_insert m a b v

theorem Memory.mem_insert {m : Memory} {a : Nat} {v : Byte} {c : Host.Cell} (h : c ∈ m.insert a v) :
    c = (a, v) ∨ c ∈ m := by
  induction m with
  | nil => simpa [Memory.insert] using h
  | cons d rest ih =>
    unfold Memory.insert at h
    split_ifs at h
    · simpa using h
    · simp only [List.mem_cons] at h ⊢; tauto
    · simp only [List.mem_cons] at h ⊢
      rcases h with h | h
      · tauto
      · have := ih h; tauto

theorem Memory.pairwise_insert {m : Memory} (a : Nat) (v : Byte) (h : m.Pairwise (fun c d => c.1 < d.1)) :
    (m.insert a v).Pairwise (fun c d => c.1 < d.1) := by
  induction m with
  | nil => simp [Memory.insert]
  | cons c rest ih =>
    have h' := List.pairwise_cons.mp h
    unfold Memory.insert
    split_ifs with h1 h2
    · refine List.pairwise_cons.mpr ⟨fun d hd => ?_, h⟩
      rcases List.mem_cons.mp hd with e | hd
      · subst e; exact h1
      · exact Nat.lt_trans h1 (h'.1 d hd)
    · subst h2; exact List.pairwise_cons.mpr ⟨h'.1, h'.2⟩
    · refine List.pairwise_cons.mpr ⟨fun d hd => ?_, ih h'.2⟩
      rcases Memory.mem_insert hd with e | hd
      · subst e; exact lt_of_le_of_ne (Nat.le_of_not_lt h1) h2
      · exact h'.1 d hd

/-- A write inside RAM keeps the canonical form. -/
theorem Memory.write_wf {m : Memory} {a : Nat} (v : Byte) (h : m.wf) (ha : a < 4096) : (m.write a v).wf := by
  unfold Memory.write
  split
  · exact ⟨h.1.filter _, fun c hc => h.2 c (List.mem_of_mem_filter hc)⟩
  · next hv =>
    refine ⟨Memory.pairwise_insert a v h.1, fun c hc => ?_⟩
    rcases Memory.mem_insert hc with e | hc
    · subst e; exact ⟨ha, hv⟩
    · exact h.2 c hc

/-- Two canonical memories that read alike everywhere are the same list. -/
theorem Memory.ext_read {m n : Memory} (hm : m.wf) (hn : n.wf) (h : ∀ a, m.read a = n.read a) : m = n := by
  have read_lt : ∀ (k : Memory) (a : Nat), (∀ c ∈ k, a < c.1) → k.read a = Memory.unlisted a := by
    intro k a hk
    induction k with
    | nil => rfl
    | cons c rest ih =>
      have : c.1 ≠ a := (Nat.ne_of_lt (hk c (by simp))).symm
      simp only [Memory.read, this, if_false]
      exact ih fun d hd => hk d (by simp [hd])
  induction m generalizing n with
  | nil =>
    cases n with
    | nil => rfl
    | cons c rest =>
      have := h c.1
      simp [Memory.read] at this
      exact absurd this.symm (hn.2 c (by simp)).2
  | cons c rest ih =>
    cases n with
    | nil =>
      have := h c.1
      simp [Memory.read] at this
      exact absurd this (hm.2 c (by simp)).2
    | cons d rest' =>
      have pm := List.pairwise_cons.mp hm.1
      have pn := List.pairwise_cons.mp hn.1
      have key : c.1 = d.1 := by
        rcases Nat.lt_trichotomy c.1 d.1 with hlt | heq | hgt
        · have := h c.1
          rw [read_lt (d :: rest') c.1 (by
            intro e he
            rcases List.mem_cons.mp he with r | r
            · subst r; exact hlt
            · exact Nat.lt_trans hlt (pn.1 e r))] at this
          simp [Memory.read] at this
          exact absurd this (hm.2 c (by simp)).2
        · exact heq
        · have := h d.1
          rw [read_lt (c :: rest) d.1 (by
            intro e he
            rcases List.mem_cons.mp he with r | r
            · subst r; exact hgt
            · exact Nat.lt_trans hgt (pm.1 e r))] at this
          simp [Memory.read] at this
          exact absurd this.symm (hn.2 d (by simp)).2
      have hv : c.2 = d.2 := by
        have := h c.1
        simpa [Memory.read, key] using this
      have hcd : c = d := Prod.ext key hv
      subst hcd
      rw [ih ⟨pm.2, fun e he => hm.2 e (by simp [he])⟩ ⟨pn.2, fun e he => hn.2 e (by simp [he])⟩ ?_]
      intro a
      by_cases ha : c.1 = a
      · rw [read_lt rest a (fun e he => ha ▸ pm.1 e he), read_lt rest' a (fun e he => ha ▸ pn.1 e he)]
      · have := h a
        simpa [Memory.read, ha] using this

/-- A canonical memory lists nothing beyond RAM, where it reads 0. -/
theorem Memory.read_beyond {m : Memory} (hm : m.wf) {a : Nat} (ha : 4096 ≤ a) : m.read a = 0 := by
  have h : ∀ c ∈ m, c.1 ≠ a := fun c hc => by have := (hm.2 c hc).1; omega
  clear hm
  induction m with
  | nil => exact if_pos (by omega)
  | cons c rest ih =>
    rw [Memory.read, if_neg (h c (by simp))]
    exact ih fun d hd => h d (by simp [hd])

/-! ### Sequences of bytes -/

/-- `writeBytes` completes exactly when its last byte is in RAM; then each byte stored reads back, every other byte is
unchanged, and the form is kept. -/
theorem writeBytes_ok (bs : List Byte) (m : Memory) (a : Nat) (hm : m.wf) (h : a + bs.length ≤ 4096) :
    ∃ m', writeBytes m a bs = .ok m' ∧ m'.wf ∧
      ∀ b, m'.read b = if a ≤ b ∧ b < a + bs.length then (bs[b - a]?).getD 0 else m.read b := by
  induction bs generalizing m a with
  | nil => exact ⟨m, rfl, hm, fun b => by rw [if_neg (by rw [List.length_nil]; omega)]⟩
  | cons v bs ih =>
    simp only [List.length_cons] at h
    obtain ⟨m', h1, h2, h3⟩ := ih (m.write a v) (a + 1) (Memory.write_wf v hm (by omega)) (by omega)
    refine ⟨m', by simp [writeBytes, writeByte, show a < 4096 by omega, h1], h2, fun b => ?_⟩
    rw [h3 b, Memory.read_write m a b v hm, List.length_cons]
    by_cases hb : b = a
    · subst hb
      rw [if_neg (by omega), if_pos rfl, if_pos (by omega)]; simp
    · by_cases hr : a + 1 ≤ b ∧ b < a + 1 + bs.length
      · rw [if_pos hr, if_pos (by omega), show b - a = (b - (a + 1)) + 1 by omega]; simp
      · rw [if_neg hr, if_neg hb, if_neg (by omega)]

/-- Otherwise `writeBytes` raises at the first address beyond RAM (R191). -/
theorem writeBytes_error (bs : List Byte) (m : Memory) (a : Nat) (h : 4096 < a + bs.length) (hne : bs ≠ []) :
    writeBytes m a bs = .error (.ramOutOfRange (max a 4096)) := by
  induction bs generalizing m a with
  | nil => exact absurd rfl hne
  | cons v bs ih =>
    simp only [List.length_cons] at h
    by_cases ha : a < 4096
    · have hne' : bs ≠ [] := by rintro rfl; rw [List.length_nil] at h; omega
      have := ih (m.write a v) (a + 1) (by omega) hne'
      rw [writeBytes]
      simp only [writeByte, Config.ramSize, ha, if_true, this]
      congr 2; omega
    · rw [writeBytes]
      simp only [writeByte, Config.ramSize, ha, if_false]
      congr 2; omega

/-- `readBytes` completes exactly when its last byte is in RAM, with the bytes in ascending order. -/
theorem readBytes_ok (n : Nat) (m : Memory) (a : Nat) (h : a + n ≤ 4096) :
    readBytes m a n = .ok ((List.range n).map fun k => m.read (a + k)) := by
  induction n generalizing a with
  | zero => rfl
  | succ n ih =>
    rw [readBytes]
    simp only [readByte, Config.ramSize, show a < 4096 by omega, if_true, ih (a + 1) (by omega)]
    simp [List.range_succ_eq_map, Function.comp_def, Nat.add_assoc, Nat.add_comm 1]

/-- Otherwise `readBytes` raises at the first address beyond RAM (R191). -/
theorem readBytes_error (n : Nat) (m : Memory) (a : Nat) (h : 4096 < a + n) (hn : n ≠ 0) :
    readBytes m a n = .error (.ramOutOfRange (max a 4096)) := by
  induction n generalizing a with
  | zero => exact absurd rfl hn
  | succ n ih =>
    by_cases ha : a < 4096
    · have := ih (a + 1) (by omega) (by omega)
      rw [readBytes]
      simp only [readByte, Config.ramSize, ha, if_true, this]
      congr 2; omega
    · rw [readBytes]
      simp only [readByte, Config.ramSize, ha, if_false]
      congr 2; omega

/-- `Memory.load` inside RAM: each byte loaded reads back, every other byte is unchanged, and the form is kept. -/
theorem Memory.load_read (bs : List Byte) (m : Memory) (a : Nat) (hm : m.wf) (h : a + bs.length ≤ 4096) :
    (m.load a bs).wf ∧
      ∀ b, (m.load a bs).read b = if a ≤ b ∧ b < a + bs.length then (bs[b - a]?).getD 0 else m.read b := by
  induction bs generalizing m a with
  | nil => exact ⟨hm, fun b => by rw [if_neg (by rw [List.length_nil]; omega)]; rfl⟩
  | cons v bs ih =>
    simp only [List.length_cons] at h
    obtain ⟨h2, h3⟩ := ih (m.write a v) (a + 1) (Memory.write_wf v hm (by omega)) (by omega)
    refine ⟨h2, fun b => ?_⟩
    rw [Memory.load, h3 b, Memory.read_write m a b v hm, List.length_cons]
    by_cases hb : b = a
    · subst hb
      rw [if_neg (by omega), if_pos rfl, if_pos (by omega)]; simp
    · by_cases hr : a + 1 ≤ b ∧ b < a + 1 + bs.length
      · rw [if_pos hr, if_pos (by omega), show b - a = (b - (a + 1)) + 1 by omega]; simp
      · rw [if_neg hr, if_neg hb, if_neg (by omega)]

/-- The memory of the reset state has the canonical form. -/
theorem Memory.wf_reset : State.reset.ram.wf := ⟨List.Pairwise.nil, fun c hc => by simp [State.reset] at hc⟩

/-- The font region lies below 0x200 (R7). -/
theorem fontAddr_le : fontAddr + 80 ≤ 0x200 := by
  have := Config.fontBase.isLt
  unfold fontAddr; omega

end Sys2Proof.Machine
end

