-- ==== Sys2Proof/Laws/State.lean ====
section
/-! SUPPORT. One lemma per field of State per named update, so that no later proof unfolds a record update; and what the
accessors (`reg`, `slot`, `keyDown`) read after each update. -/

namespace Sys2Proof.Machine.State

variable (s : State)

/-! ### setReg -/

@[simp] theorem I_setReg (r : Reg) (v : Byte) : (s.setReg r v).I = s.I := rfl
@[simp] theorem pc_setReg (r : Reg) (v : Byte) : (s.setReg r v).pc = s.pc := rfl
@[simp] theorem sp_setReg (r : Reg) (v : Byte) : (s.setReg r v).sp = s.sp := rfl
@[simp] theorem stack_setReg (r : Reg) (v : Byte) : (s.setReg r v).stack = s.stack := rfl
@[simp] theorem dt_setReg (r : Reg) (v : Byte) : (s.setReg r v).dt = s.dt := rfl
@[simp] theorem st_setReg (r : Reg) (v : Byte) : (s.setReg r v).st = s.st := rfl
@[simp] theorem ram_setReg (r : Reg) (v : Byte) : (s.setReg r v).ram = s.ram := rfl
@[simp] theorem fb_setReg (r : Reg) (v : Byte) : (s.setReg r v).fb = s.fb := rfl
@[simp] theorem key_setReg (r : Reg) (v : Byte) : (s.setReg r v).key = s.key := rfl
@[simp] theorem fbChanged_setReg (r : Reg) (v : Byte) : (s.setReg r v).fbChanged = s.fbChanged := rfl
@[simp] theorem unknown_setReg (r : Reg) (v : Byte) : (s.setReg r v).unknown = s.unknown := rfl
@[simp] theorem faulted_setReg (r : Reg) (v : Byte) : (s.setReg r v).faulted = s.faulted := rfl
@[simp] theorem draws_setReg (r : Reg) (v : Byte) : (s.setReg r v).draws = s.draws := rfl
@[simp] theorem slot_setReg (r : Reg) (v : Byte) (k : Nat) : (s.setReg r v).slot k = s.slot k := rfl
@[simp] theorem keyDown_setReg (r : Reg) (v : Byte) (k : Nat) : (s.setReg r v).keyDown k = s.keyDown k := rfl

/-! ### setRegs -/

@[simp] theorem I_setRegs (bs : List Byte) : (s.setRegs bs).I = s.I := rfl
@[simp] theorem pc_setRegs (bs : List Byte) : (s.setRegs bs).pc = s.pc := rfl
@[simp] theorem sp_setRegs (bs : List Byte) : (s.setRegs bs).sp = s.sp := rfl
@[simp] theorem stack_setRegs (bs : List Byte) : (s.setRegs bs).stack = s.stack := rfl
@[simp] theorem dt_setRegs (bs : List Byte) : (s.setRegs bs).dt = s.dt := rfl
@[simp] theorem st_setRegs (bs : List Byte) : (s.setRegs bs).st = s.st := rfl
@[simp] theorem ram_setRegs (bs : List Byte) : (s.setRegs bs).ram = s.ram := rfl
@[simp] theorem fb_setRegs (bs : List Byte) : (s.setRegs bs).fb = s.fb := rfl
@[simp] theorem key_setRegs (bs : List Byte) : (s.setRegs bs).key = s.key := rfl
@[simp] theorem fbChanged_setRegs (bs : List Byte) : (s.setRegs bs).fbChanged = s.fbChanged := rfl
@[simp] theorem unknown_setRegs (bs : List Byte) : (s.setRegs bs).unknown = s.unknown := rfl
@[simp] theorem faulted_setRegs (bs : List Byte) : (s.setRegs bs).faulted = s.faulted := rfl
@[simp] theorem draws_setRegs (bs : List Byte) : (s.setRegs bs).draws = s.draws := rfl
@[simp] theorem slot_setRegs (bs : List Byte) (k : Nat) : (s.setRegs bs).slot k = s.slot k := rfl
@[simp] theorem keyDown_setRegs (bs : List Byte) (k : Nat) : (s.setRegs bs).keyDown k = s.keyDown k := rfl

/-! ### setI -/

@[simp] theorem x_setI (v : Word) : (s.setI v).x = s.x := rfl
@[simp] theorem I_setI (v : Word) : (s.setI v).I = v := rfl
@[simp] theorem pc_setI (v : Word) : (s.setI v).pc = s.pc := rfl
@[simp] theorem sp_setI (v : Word) : (s.setI v).sp = s.sp := rfl
@[simp] theorem stack_setI (v : Word) : (s.setI v).stack = s.stack := rfl
@[simp] theorem dt_setI (v : Word) : (s.setI v).dt = s.dt := rfl
@[simp] theorem st_setI (v : Word) : (s.setI v).st = s.st := rfl
@[simp] theorem ram_setI (v : Word) : (s.setI v).ram = s.ram := rfl
@[simp] theorem fb_setI (v : Word) : (s.setI v).fb = s.fb := rfl
@[simp] theorem key_setI (v : Word) : (s.setI v).key = s.key := rfl
@[simp] theorem fbChanged_setI (v : Word) : (s.setI v).fbChanged = s.fbChanged := rfl
@[simp] theorem unknown_setI (v : Word) : (s.setI v).unknown = s.unknown := rfl
@[simp] theorem faulted_setI (v : Word) : (s.setI v).faulted = s.faulted := rfl
@[simp] theorem draws_setI (v : Word) : (s.setI v).draws = s.draws := rfl
@[simp] theorem reg_setI (v : Word) (q : Reg) : (s.setI v).reg q = s.reg q := rfl
@[simp] theorem slot_setI (v : Word) (k : Nat) : (s.setI v).slot k = s.slot k := rfl
@[simp] theorem keyDown_setI (v : Word) (k : Nat) : (s.setI v).keyDown k = s.keyDown k := rfl

/-! ### setPc -/

@[simp] theorem x_setPc (v : Word) : (s.setPc v).x = s.x := rfl
@[simp] theorem I_setPc (v : Word) : (s.setPc v).I = s.I := rfl
@[simp] theorem pc_setPc (v : Word) : (s.setPc v).pc = v := rfl
@[simp] theorem sp_setPc (v : Word) : (s.setPc v).sp = s.sp := rfl
@[simp] theorem stack_setPc (v : Word) : (s.setPc v).stack = s.stack := rfl
@[simp] theorem dt_setPc (v : Word) : (s.setPc v).dt = s.dt := rfl
@[simp] theorem st_setPc (v : Word) : (s.setPc v).st = s.st := rfl
@[simp] theorem ram_setPc (v : Word) : (s.setPc v).ram = s.ram := rfl
@[simp] theorem fb_setPc (v : Word) : (s.setPc v).fb = s.fb := rfl
@[simp] theorem key_setPc (v : Word) : (s.setPc v).key = s.key := rfl
@[simp] theorem fbChanged_setPc (v : Word) : (s.setPc v).fbChanged = s.fbChanged := rfl
@[simp] theorem unknown_setPc (v : Word) : (s.setPc v).unknown = s.unknown := rfl
@[simp] theorem faulted_setPc (v : Word) : (s.setPc v).faulted = s.faulted := rfl
@[simp] theorem draws_setPc (v : Word) : (s.setPc v).draws = s.draws := rfl
@[simp] theorem reg_setPc (v : Word) (q : Reg) : (s.setPc v).reg q = s.reg q := rfl
@[simp] theorem slot_setPc (v : Word) (k : Nat) : (s.setPc v).slot k = s.slot k := rfl
@[simp] theorem keyDown_setPc (v : Word) (k : Nat) : (s.setPc v).keyDown k = s.keyDown k := rfl

/-! ### setDt -/

@[simp] theorem x_setDt (v : Byte) : (s.setDt v).x = s.x := rfl
@[simp] theorem I_setDt (v : Byte) : (s.setDt v).I = s.I := rfl
@[simp] theorem pc_setDt (v : Byte) : (s.setDt v).pc = s.pc := rfl
@[simp] theorem sp_setDt (v : Byte) : (s.setDt v).sp = s.sp := rfl
@[simp] theorem stack_setDt (v : Byte) : (s.setDt v).stack = s.stack := rfl
@[simp] theorem dt_setDt (v : Byte) : (s.setDt v).dt = v := rfl
@[simp] theorem st_setDt (v : Byte) : (s.setDt v).st = s.st := rfl
@[simp] theorem ram_setDt (v : Byte) : (s.setDt v).ram = s.ram := rfl
@[simp] theorem fb_setDt (v : Byte) : (s.setDt v).fb = s.fb := rfl
@[simp] theorem key_setDt (v : Byte) : (s.setDt v).key = s.key := rfl
@[simp] theorem fbChanged_setDt (v : Byte) : (s.setDt v).fbChanged = s.fbChanged := rfl
@[simp] theorem unknown_setDt (v : Byte) : (s.setDt v).unknown = s.unknown := rfl
@[simp] theorem faulted_setDt (v : Byte) : (s.setDt v).faulted = s.faulted := rfl
@[simp] theorem draws_setDt (v : Byte) : (s.setDt v).draws = s.draws := rfl
@[simp] theorem reg_setDt (v : Byte) (q : Reg) : (s.setDt v).reg q = s.reg q := rfl
@[simp] theorem slot_setDt (v : Byte) (k : Nat) : (s.setDt v).slot k = s.slot k := rfl
@[simp] theorem keyDown_setDt (v : Byte) (k : Nat) : (s.setDt v).keyDown k = s.keyDown k := rfl

/-! ### setSt -/

@[simp] theorem x_setSt (v : Byte) : (s.setSt v).x = s.x := rfl
@[simp] theorem I_setSt (v : Byte) : (s.setSt v).I = s.I := rfl
@[simp] theorem pc_setSt (v : Byte) : (s.setSt v).pc = s.pc := rfl
@[simp] theorem sp_setSt (v : Byte) : (s.setSt v).sp = s.sp := rfl
@[simp] theorem stack_setSt (v : Byte) : (s.setSt v).stack = s.stack := rfl
@[simp] theorem dt_setSt (v : Byte) : (s.setSt v).dt = s.dt := rfl
@[simp] theorem st_setSt (v : Byte) : (s.setSt v).st = v := rfl
@[simp] theorem ram_setSt (v : Byte) : (s.setSt v).ram = s.ram := rfl
@[simp] theorem fb_setSt (v : Byte) : (s.setSt v).fb = s.fb := rfl
@[simp] theorem key_setSt (v : Byte) : (s.setSt v).key = s.key := rfl
@[simp] theorem fbChanged_setSt (v : Byte) : (s.setSt v).fbChanged = s.fbChanged := rfl
@[simp] theorem unknown_setSt (v : Byte) : (s.setSt v).unknown = s.unknown := rfl
@[simp] theorem faulted_setSt (v : Byte) : (s.setSt v).faulted = s.faulted := rfl
@[simp] theorem draws_setSt (v : Byte) : (s.setSt v).draws = s.draws := rfl
@[simp] theorem reg_setSt (v : Byte) (q : Reg) : (s.setSt v).reg q = s.reg q := rfl
@[simp] theorem slot_setSt (v : Byte) (k : Nat) : (s.setSt v).slot k = s.slot k := rfl
@[simp] theorem keyDown_setSt (v : Byte) (k : Nat) : (s.setSt v).keyDown k = s.keyDown k := rfl

/-! ### setRam -/

@[simp] theorem x_setRam (m : Memory) : (s.setRam m).x = s.x := rfl
@[simp] theorem I_setRam (m : Memory) : (s.setRam m).I = s.I := rfl
@[simp] theorem pc_setRam (m : Memory) : (s.setRam m).pc = s.pc := rfl
@[simp] theorem sp_setRam (m : Memory) : (s.setRam m).sp = s.sp := rfl
@[simp] theorem stack_setRam (m : Memory) : (s.setRam m).stack = s.stack := rfl
@[simp] theorem dt_setRam (m : Memory) : (s.setRam m).dt = s.dt := rfl
@[simp] theorem st_setRam (m : Memory) : (s.setRam m).st = s.st := rfl
@[simp] theorem ram_setRam (m : Memory) : (s.setRam m).ram = m := rfl
@[simp] theorem fb_setRam (m : Memory) : (s.setRam m).fb = s.fb := rfl
@[simp] theorem key_setRam (m : Memory) : (s.setRam m).key = s.key := rfl
@[simp] theorem fbChanged_setRam (m : Memory) : (s.setRam m).fbChanged = s.fbChanged := rfl
@[simp] theorem unknown_setRam (m : Memory) : (s.setRam m).unknown = s.unknown := rfl
@[simp] theorem faulted_setRam (m : Memory) : (s.setRam m).faulted = s.faulted := rfl
@[simp] theorem draws_setRam (m : Memory) : (s.setRam m).draws = s.draws := rfl
@[simp] theorem reg_setRam (m : Memory) (q : Reg) : (s.setRam m).reg q = s.reg q := rfl
@[simp] theorem slot_setRam (m : Memory) (k : Nat) : (s.setRam m).slot k = s.slot k := rfl
@[simp] theorem keyDown_setRam (m : Memory) (k : Nat) : (s.setRam m).keyDown k = s.keyDown k := rfl

/-! ### setUnknown -/

@[simp] theorem x_setUnknown (w : Word) : (s.setUnknown w).x = s.x := rfl
@[simp] theorem I_setUnknown (w : Word) : (s.setUnknown w).I = s.I := rfl
@[simp] theorem pc_setUnknown (w : Word) : (s.setUnknown w).pc = s.pc := rfl
@[simp] theorem sp_setUnknown (w : Word) : (s.setUnknown w).sp = s.sp := rfl
@[simp] theorem stack_setUnknown (w : Word) : (s.setUnknown w).stack = s.stack := rfl
@[simp] theorem dt_setUnknown (w : Word) : (s.setUnknown w).dt = s.dt := rfl
@[simp] theorem st_setUnknown (w : Word) : (s.setUnknown w).st = s.st := rfl
@[simp] theorem ram_setUnknown (w : Word) : (s.setUnknown w).ram = s.ram := rfl
@[simp] theorem fb_setUnknown (w : Word) : (s.setUnknown w).fb = s.fb := rfl
@[simp] theorem key_setUnknown (w : Word) : (s.setUnknown w).key = s.key := rfl
@[simp] theorem fbChanged_setUnknown (w : Word) : (s.setUnknown w).fbChanged = s.fbChanged := rfl
@[simp] theorem unknown_setUnknown (w : Word) : (s.setUnknown w).unknown = some w := rfl
@[simp] theorem faulted_setUnknown (w : Word) : (s.setUnknown w).faulted = s.faulted := rfl
@[simp] theorem draws_setUnknown (w : Word) : (s.setUnknown w).draws = s.draws := rfl
@[simp] theorem reg_setUnknown (w : Word) (q : Reg) : (s.setUnknown w).reg q = s.reg q := rfl
@[simp] theorem slot_setUnknown (w : Word) (k : Nat) : (s.setUnknown w).slot k = s.slot k := rfl
@[simp] theorem keyDown_setUnknown (w : Word) (k : Nat) : (s.setUnknown w).keyDown k = s.keyDown k := rfl

/-! ### beginStep -/

@[simp] theorem x_beginStep : (s.beginStep).x = s.x := rfl
@[simp] theorem I_beginStep : (s.beginStep).I = s.I := rfl
@[simp] theorem pc_beginStep : (s.beginStep).pc = s.pc + 2 := rfl
@[simp] theorem sp_beginStep : (s.beginStep).sp = s.sp := rfl
@[simp] theorem stack_beginStep : (s.beginStep).stack = s.stack := rfl
@[simp] theorem dt_beginStep : (s.beginStep).dt = s.dt := rfl
@[simp] theorem st_beginStep : (s.beginStep).st = s.st := rfl
@[simp] theorem ram_beginStep : (s.beginStep).ram = s.ram := rfl
@[simp] theorem fb_beginStep : (s.beginStep).fb = s.fb := rfl
@[simp] theorem key_beginStep : (s.beginStep).key = s.key := rfl
@[simp] theorem fbChanged_beginStep : (s.beginStep).fbChanged = false := rfl
@[simp] theorem unknown_beginStep : (s.beginStep).unknown = none := rfl
@[simp] theorem faulted_beginStep : (s.beginStep).faulted = s.faulted := rfl
@[simp] theorem draws_beginStep : (s.beginStep).draws = s.draws := rfl
@[simp] theorem reg_beginStep (q : Reg) : (s.beginStep).reg q = s.reg q := rfl
@[simp] theorem slot_beginStep (k : Nat) : (s.beginStep).slot k = s.slot k := rfl
@[simp] theorem keyDown_beginStep (k : Nat) : (s.beginStep).keyDown k = s.keyDown k := rfl

/-! ### tick -/

@[simp] theorem x_tick : (s.tick).x = s.x := rfl
@[simp] theorem I_tick : (s.tick).I = s.I := rfl
@[simp] theorem pc_tick : (s.tick).pc = s.pc := rfl
@[simp] theorem sp_tick : (s.tick).sp = s.sp := rfl
@[simp] theorem stack_tick : (s.tick).stack = s.stack := rfl
@[simp] theorem dt_tick : (s.tick).dt = tickTimer s.dt := rfl
@[simp] theorem st_tick : (s.tick).st = tickTimer s.st := rfl
@[simp] theorem ram_tick : (s.tick).ram = s.ram := rfl
@[simp] theorem fb_tick : (s.tick).fb = s.fb := rfl
@[simp] theorem key_tick : (s.tick).key = s.key := rfl
@[simp] theorem fbChanged_tick : (s.tick).fbChanged = s.fbChanged := rfl
@[simp] theorem unknown_tick : (s.tick).unknown = s.unknown := rfl
@[simp] theorem faulted_tick : (s.tick).faulted = s.faulted := rfl
@[simp] theorem draws_tick : (s.tick).draws = s.draws := rfl
@[simp] theorem reg_tick (q : Reg) : (s.tick).reg q = s.reg q := rfl
@[simp] theorem slot_tick (k : Nat) : (s.tick).slot k = s.slot k := rfl
@[simp] theorem keyDown_tick (k : Nat) : (s.tick).keyDown k = s.keyDown k := rfl

/-! ### countDraw -/

@[simp] theorem x_countDraw : (s.countDraw).x = s.x := rfl
@[simp] theorem I_countDraw : (s.countDraw).I = s.I := rfl
@[simp] theorem pc_countDraw : (s.countDraw).pc = s.pc := rfl
@[simp] theorem sp_countDraw : (s.countDraw).sp = s.sp := rfl
@[simp] theorem stack_countDraw : (s.countDraw).stack = s.stack := rfl
@[simp] theorem dt_countDraw : (s.countDraw).dt = s.dt := rfl
@[simp] theorem st_countDraw : (s.countDraw).st = s.st := rfl
@[simp] theorem ram_countDraw : (s.countDraw).ram = s.ram := rfl
@[simp] theorem fb_countDraw : (s.countDraw).fb = s.fb := rfl
@[simp] theorem key_countDraw : (s.countDraw).key = s.key := rfl
@[simp] theorem fbChanged_countDraw : (s.countDraw).fbChanged = s.fbChanged := rfl
@[simp] theorem unknown_countDraw : (s.countDraw).unknown = s.unknown := rfl
@[simp] theorem faulted_countDraw : (s.countDraw).faulted = s.faulted := rfl
@[simp] theorem draws_countDraw : (s.countDraw).draws = s.draws + 1 := rfl
@[simp] theorem reg_countDraw (q : Reg) : (s.countDraw).reg q = s.reg q := rfl
@[simp] theorem slot_countDraw (k : Nat) : (s.countDraw).slot k = s.slot k := rfl
@[simp] theorem keyDown_countDraw (k : Nat) : (s.countDraw).keyDown k = s.keyDown k := rfl

/-! ### pushPc -/

@[simp] theorem x_pushPc : (s.pushPc).x = s.x := rfl
@[simp] theorem I_pushPc : (s.pushPc).I = s.I := rfl
@[simp] theorem pc_pushPc : (s.pushPc).pc = s.pc := rfl
@[simp] theorem sp_pushPc : (s.pushPc).sp = s.sp + 1 := rfl
@[simp] theorem stack_pushPc : (s.pushPc).stack = s.stack.setIfInBounds (s.sp + 1).toNat s.pc := rfl
@[simp] theorem dt_pushPc : (s.pushPc).dt = s.dt := rfl
@[simp] theorem st_pushPc : (s.pushPc).st = s.st := rfl
@[simp] theorem ram_pushPc : (s.pushPc).ram = s.ram := rfl
@[simp] theorem fb_pushPc : (s.pushPc).fb = s.fb := rfl
@[simp] theorem key_pushPc : (s.pushPc).key = s.key := rfl
@[simp] theorem fbChanged_pushPc : (s.pushPc).fbChanged = s.fbChanged := rfl
@[simp] theorem unknown_pushPc : (s.pushPc).unknown = s.unknown := rfl
@[simp] theorem faulted_pushPc : (s.pushPc).faulted = s.faulted := rfl
@[simp] theorem draws_pushPc : (s.pushPc).draws = s.draws := rfl
@[simp] theorem reg_pushPc (q : Reg) : (s.pushPc).reg q = s.reg q := rfl
@[simp] theorem keyDown_pushPc (k : Nat) : (s.pushPc).keyDown k = s.keyDown k := rfl

/-! ### popPc -/

@[simp] theorem x_popPc : (s.popPc).x = s.x := rfl
@[simp] theorem I_popPc : (s.popPc).I = s.I := rfl
@[simp] theorem pc_popPc : (s.popPc).pc = s.slot s.sp.toNat := rfl
@[simp] theorem sp_popPc : (s.popPc).sp = s.sp - 1 := rfl
@[simp] theorem stack_popPc : (s.popPc).stack = s.stack := rfl
@[simp] theorem dt_popPc : (s.popPc).dt = s.dt := rfl
@[simp] theorem st_popPc : (s.popPc).st = s.st := rfl
@[simp] theorem ram_popPc : (s.popPc).ram = s.ram := rfl
@[simp] theorem fb_popPc : (s.popPc).fb = s.fb := rfl
@[simp] theorem key_popPc : (s.popPc).key = s.key := rfl
@[simp] theorem fbChanged_popPc : (s.popPc).fbChanged = s.fbChanged := rfl
@[simp] theorem unknown_popPc : (s.popPc).unknown = s.unknown := rfl
@[simp] theorem faulted_popPc : (s.popPc).faulted = s.faulted := rfl
@[simp] theorem draws_popPc : (s.popPc).draws = s.draws := rfl
@[simp] theorem reg_popPc (q : Reg) : (s.popPc).reg q = s.reg q := rfl
@[simp] theorem slot_popPc (k : Nat) : (s.popPc).slot k = s.slot k := rfl
@[simp] theorem keyDown_popPc (k : Nat) : (s.popPc).keyDown k = s.keyDown k := rfl

/-! ### showFb -/

@[simp] theorem x_showFb (g : Vector Bool 2048) : (s.showFb g).x = s.x := rfl
@[simp] theorem I_showFb (g : Vector Bool 2048) : (s.showFb g).I = s.I := rfl
@[simp] theorem pc_showFb (g : Vector Bool 2048) : (s.showFb g).pc = s.pc := rfl
@[simp] theorem sp_showFb (g : Vector Bool 2048) : (s.showFb g).sp = s.sp := rfl
@[simp] theorem stack_showFb (g : Vector Bool 2048) : (s.showFb g).stack = s.stack := rfl
@[simp] theorem dt_showFb (g : Vector Bool 2048) : (s.showFb g).dt = s.dt := rfl
@[simp] theorem st_showFb (g : Vector Bool 2048) : (s.showFb g).st = s.st := rfl
@[simp] theorem ram_showFb (g : Vector Bool 2048) : (s.showFb g).ram = s.ram := rfl
@[simp] theorem fb_showFb (g : Vector Bool 2048) : (s.showFb g).fb = g := rfl
@[simp] theorem key_showFb (g : Vector Bool 2048) : (s.showFb g).key = s.key := rfl
@[simp] theorem fbChanged_showFb (g : Vector Bool 2048) : (s.showFb g).fbChanged = if g = s.fb then Config.fbReport s.draws else true := by
  simp [State.showFb, Vector.toList_inj]
@[simp] theorem unknown_showFb (g : Vector Bool 2048) : (s.showFb g).unknown = s.unknown := rfl
@[simp] theorem faulted_showFb (g : Vector Bool 2048) : (s.showFb g).faulted = s.faulted := rfl
@[simp] theorem draws_showFb (g : Vector Bool 2048) : (s.showFb g).draws = s.draws + 1 := rfl
@[simp] theorem reg_showFb (g : Vector Bool 2048) (q : Reg) : (s.showFb g).reg q = s.reg q := rfl
@[simp] theorem slot_showFb (g : Vector Bool 2048) (k : Nat) : (s.showFb g).slot k = s.slot k := rfl
@[simp] theorem keyDown_showFb (g : Vector Bool 2048) (k : Nat) : (s.showFb g).keyDown k = s.keyDown k := rfl

/-! ### What a register write and a stack push read back as -/

/-- A register reads as what was last written to it, and every other register is unchanged (R10). -/
@[simp] theorem reg_setReg (r q : Reg) (v : Byte) : (s.setReg r v).reg q = if q = r then v else s.reg q := by
  unfold reg setReg
  by_cases h : q = r
  · subst h; simp
  · have : r.val ≠ q.val := fun e => h (Fin.ext e.symm)
    simp [h, this]

/-- A list of loaded registers reads as the list where it reaches, and as before beyond it (R170). -/
@[simp] theorem reg_setRegs (bs : List Byte) (q : Reg) : (s.setRegs bs).reg q = (bs[q.val]?).getD (s.reg q) := by
  simp [reg, setRegs]

/-- A push stores `pc` in the slot above, and leaves every other slot (R122). -/
theorem slot_pushPc (h : s.sp.toNat < 15) (k : Nat) :
    s.pushPc.slot k = if k = s.sp.toNat + 1 then s.pc else s.slot k := by
  have h1 : (s.sp + 1).toNat = s.sp.toNat + 1 := by
    rw [BitVec.toNat_add]; simp; omega
  unfold slot
  simp only [stack_pushPc, h1, Vector.getElem?_setIfInBounds]
  by_cases hk : k = s.sp.toNat + 1
  · subst hk
    rw [if_pos rfl, if_pos (by omega), if_pos rfl]; rfl
  · simp [hk, Ne.symm hk]

/-- What the two writes of a flag-writing instruction leave in a register (R113). -/
@[simp] theorem reg_setResultAndFlag (X q : Reg) (v : Byte) (b : Bool) :
    (s.setResultAndFlag X v b).reg q =
      if q = 15 then (if X = 15 then (if Config.flagWriteLast then flagByte b else v) else flagByte b)
      else if q = X then v else s.reg q := by
  unfold setResultAndFlag
  by_cases hX : X = 15
  · subst hX; by_cases hq : q = 15 <;> simp [hq]
  · by_cases hq : q = 15 <;> simp [hX, hq]

@[simp] theorem I_setResultAndFlag (X : Reg) (v : Byte) (b : Bool) : (s.setResultAndFlag X v b).I = s.I := by
  unfold setResultAndFlag; split <;> rfl
@[simp] theorem pc_setResultAndFlag (X : Reg) (v : Byte) (b : Bool) : (s.setResultAndFlag X v b).pc = s.pc := by
  unfold setResultAndFlag; split <;> rfl
@[simp] theorem sp_setResultAndFlag (X : Reg) (v : Byte) (b : Bool) : (s.setResultAndFlag X v b).sp = s.sp := by
  unfold setResultAndFlag; split <;> rfl
@[simp] theorem stack_setResultAndFlag (X : Reg) (v : Byte) (b : Bool) : (s.setResultAndFlag X v b).stack = s.stack := by
  unfold setResultAndFlag; split <;> rfl
@[simp] theorem dt_setResultAndFlag (X : Reg) (v : Byte) (b : Bool) : (s.setResultAndFlag X v b).dt = s.dt := by
  unfold setResultAndFlag; split <;> rfl
@[simp] theorem st_setResultAndFlag (X : Reg) (v : Byte) (b : Bool) : (s.setResultAndFlag X v b).st = s.st := by
  unfold setResultAndFlag; split <;> rfl
@[simp] theorem ram_setResultAndFlag (X : Reg) (v : Byte) (b : Bool) : (s.setResultAndFlag X v b).ram = s.ram := by
  unfold setResultAndFlag; split <;> rfl
@[simp] theorem fb_setResultAndFlag (X : Reg) (v : Byte) (b : Bool) : (s.setResultAndFlag X v b).fb = s.fb := by
  unfold setResultAndFlag; split <;> rfl
@[simp] theorem key_setResultAndFlag (X : Reg) (v : Byte) (b : Bool) : (s.setResultAndFlag X v b).key = s.key := by
  unfold setResultAndFlag; split <;> rfl
@[simp] theorem fbChanged_setResultAndFlag (X : Reg) (v : Byte) (b : Bool) : (s.setResultAndFlag X v b).fbChanged = s.fbChanged := by
  unfold setResultAndFlag; split <;> rfl
@[simp] theorem unknown_setResultAndFlag (X : Reg) (v : Byte) (b : Bool) : (s.setResultAndFlag X v b).unknown = s.unknown := by
  unfold setResultAndFlag; split <;> rfl
@[simp] theorem faulted_setResultAndFlag (X : Reg) (v : Byte) (b : Bool) : (s.setResultAndFlag X v b).faulted = s.faulted := by
  unfold setResultAndFlag; split <;> rfl
@[simp] theorem draws_setResultAndFlag (X : Reg) (v : Byte) (b : Bool) : (s.setResultAndFlag X v b).draws = s.draws := by
  unfold setResultAndFlag; split <;> rfl
@[simp] theorem slot_setResultAndFlag (X : Reg) (v : Byte) (b : Bool) (k : Nat) :
    (s.setResultAndFlag X v b).slot k = s.slot k := by
  simp [slot]
@[simp] theorem keyDown_setResultAndFlag (X : Reg) (v : Byte) (b : Bool) (k : Nat) :
    (s.setResultAndFlag X v b).keyDown k = s.keyDown k := by
  simp [keyDown]

/-! ### skipIf -/

/-- A skip moves only `pc`, by 2 or not at all (R130). -/
@[simp] theorem pc_skipIf (c : Bool) : (s.skipIf c).pc = if c then s.pc + 2 else s.pc := by
  unfold skipIf; split <;> rfl
@[simp] theorem x_skipIf (c : Bool) : (s.skipIf c).x = s.x := by
  unfold skipIf; split <;> rfl
@[simp] theorem I_skipIf (c : Bool) : (s.skipIf c).I = s.I := by
  unfold skipIf; split <;> rfl
@[simp] theorem sp_skipIf (c : Bool) : (s.skipIf c).sp = s.sp := by
  unfold skipIf; split <;> rfl
@[simp] theorem stack_skipIf (c : Bool) : (s.skipIf c).stack = s.stack := by
  unfold skipIf; split <;> rfl
@[simp] theorem dt_skipIf (c : Bool) : (s.skipIf c).dt = s.dt := by
  unfold skipIf; split <;> rfl
@[simp] theorem st_skipIf (c : Bool) : (s.skipIf c).st = s.st := by
  unfold skipIf; split <;> rfl
@[simp] theorem ram_skipIf (c : Bool) : (s.skipIf c).ram = s.ram := by
  unfold skipIf; split <;> rfl
@[simp] theorem fb_skipIf (c : Bool) : (s.skipIf c).fb = s.fb := by
  unfold skipIf; split <;> rfl
@[simp] theorem key_skipIf (c : Bool) : (s.skipIf c).key = s.key := by
  unfold skipIf; split <;> rfl
@[simp] theorem fbChanged_skipIf (c : Bool) : (s.skipIf c).fbChanged = s.fbChanged := by
  unfold skipIf; split <;> rfl
@[simp] theorem unknown_skipIf (c : Bool) : (s.skipIf c).unknown = s.unknown := by
  unfold skipIf; split <;> rfl
@[simp] theorem faulted_skipIf (c : Bool) : (s.skipIf c).faulted = s.faulted := by
  unfold skipIf; split <;> rfl
@[simp] theorem draws_skipIf (c : Bool) : (s.skipIf c).draws = s.draws := by
  unfold skipIf; split <;> rfl
@[simp] theorem reg_skipIf (c : Bool) (k : Reg) : (s.skipIf c).reg k = s.reg k := by
  simp [reg]
@[simp] theorem slot_skipIf (c : Bool) (k : Nat) : (s.skipIf c).slot k = s.slot k := by
  simp [slot]
@[simp] theorem keyDown_skipIf (c : Bool) (k : Nat) : (s.skipIf c).keyDown k = s.keyDown k := by
  simp [keyDown]

end Sys2Proof.Machine.State
end

