-- ==== Sys2Proof/Laws/Display.lean ====
section
/-! SUPPORT. What the XOR-blit can do, said once: the pixels and the collision of a list of columns and of a list of rows
(spec/42_display.md R141). -/

namespace Sys2Proof.Machine

theorem fbGet_fbSet (fb : Vector Bool 2048) (i j : Nat) (v : Bool) (h : i < 2048) :
    fbGet (fbSet fb i v) j = if j = i then v else fbGet fb j := by
  unfold fbGet fbSet
  rw [Vector.getElem?_setIfInBounds]
  by_cases hj : j = i
  · subst hj; rw [if_pos rfl, if_pos h, if_pos rfl]; rfl
  · rw [if_neg (Ne.symm hj), if_neg hj]

theorem fbGet_ext {f g : Vector Bool 2048} (h : ∀ i < 2048, fbGet f i = fbGet g i) : f = g := by
  apply Vector.ext
  intro i hi
  have := h i hi
  simpa [fbGet, hi] using this

@[simp] theorem fbGet_fbClear (i : Nat) : fbGet fbClear i = false := by
  unfold fbGet fbClear
  by_cases h : i < 2048
  · simp [h]
  · rw [Vector.getElem?_eq_none (by omega)]; rfl

/-- The columns of one row that stays on the screen. -/
theorem blitCols_ok (x0 py : Nat) (b : Byte) (cs : List Nat) (d : Blit) (hy : py < 32)
    (hx : ∀ c ∈ cs, x0 + c < 64) (hn : cs.Nodup) :
    ∃ d', blitCols x0 py b cs d = .ok d' ∧
      (∀ i, fbGet d'.fb i = (fbGet d.fb i ^^ cs.any fun c => i == py * 64 + (x0 + c) && spriteBit b c)) ∧
      d'.hit = (d.hit || cs.any fun c => spriteBit b c && fbGet d.fb (py * 64 + (x0 + c))) := by
  induction cs generalizing d with
  | nil => exact ⟨d, rfl, fun i => by simp, by simp⟩
  | cons c cs ih =>
    have hc : x0 + c < 64 := hx c (by simp)
    rw [List.nodup_cons] at hn
    have hstep : blitPixel (x0 + c) py (spriteBit b c) d =
        .ok { fb := fbSet d.fb (py * 64 + (x0 + c)) (fbGet d.fb (py * 64 + (x0 + c)) ^^ spriteBit b c),
              hit := d.hit || (spriteBit b c && fbGet d.fb (py * 64 + (x0 + c))) } := by
      unfold blitPixel
      rw [if_neg (by simp; omega)]
    obtain ⟨d', h1, h2, h3⟩ := ih _ (fun e he => hx e (by simp [he])) hn.2
    refine ⟨d', by rw [blitCols, hstep]; exact h1, fun i => ?_, ?_⟩
    · rw [h2 i, fbGet_fbSet _ _ _ _ (by omega)]
      by_cases hi : i = py * 64 + (x0 + c)
      · subst hi
        have : (cs.any fun e => py * 64 + (x0 + c) == py * 64 + (x0 + e) && spriteBit b e) = false := by
          rw [List.any_eq_false]
          intro e he
          have : c ≠ e := fun r => hn.1 (r ▸ he)
          simp [this]
        rw [this]; simp [this]
      · simp [hi]
    · rw [h3, List.any_cons, Bool.or_assoc]
      congr 2
      rw [Bool.eq_iff_iff, List.any_eq_true, List.any_eq_true]
      refine exists_congr fun e => and_congr_right fun he => ?_
      have : py * 64 + (x0 + e) ≠ py * 64 + (x0 + c) := by
        intro r
        have : c = e := by omega
        exact hn.1 (this ▸ he)
      simp only
      rw [fbGet_fbSet _ _ _ _ (by omega), if_neg this]

/-- A row that starts too far right raises at column 64 (R142, R146). -/
theorem blitCols_error_right (x0 py : Nat) (b : Byte) (cs : List Nat) (d : Blit) (k : Nat) (hy : py < 32)
    (hk : 64 ≤ x0 + (k + cs.length - 1)) (hne : cs ≠ []) (hcs : cs = List.range' k cs.length) (hk' : x0 + k ≤ 64) :
    blitCols x0 py b cs d = .error (.framebufferOutOfRange 64 py) := by
  induction cs generalizing d k with
  | nil => exact absurd rfl hne
  | cons c cs ih =>
    simp only [List.length_cons, List.range'_succ, List.cons.injEq] at hcs
    obtain ⟨rfl, hcs⟩ := hcs
    by_cases hc : x0 + c = 64
    · rw [blitCols, blitPixel, if_pos (by left; simp; omega), hc]
    · have hne' : cs ≠ [] := by
        rintro rfl
        simp at hk; omega
      rw [blitCols, blitPixel, if_neg (by simp; omega)]
      simp only [List.length_cons] at hk
      exact ih _ (c + 1) (by omega) hne' hcs (by omega)

/-- A row past the bottom edge raises at its first column (R142, R146). -/
theorem blitCols_error_bottom (x0 py : Nat) (b : Byte) (d : Blit) (hy : 32 ≤ py) :
    blitCols x0 py b (List.range 8) d = .error (.framebufferOutOfRange x0 py) := by
  show blitCols x0 py b (0 :: List.range' 1 7) d = _
  rw [blitCols, blitPixel, if_pos (by right; simpa using hy)]
  simp

/-- The first row of a list of rows that is in RAM and on the screen. -/
theorem blitRows_cons (m : Memory) (base x0 y0 r : Nat) (rs : List Nat) (d : Blit) (hr : base + r < 4096)
    (hx : x0 ≤ 56) (hy : y0 + r < 32) :
    ∃ d', blitRows m base x0 y0 (r :: rs) d = blitRows m base x0 y0 rs d' ∧
      (∀ i, fbGet d'.fb i = (fbGet d.fb i ^^ (List.range 8).any fun c =>
        i == (y0 + r) * 64 + (x0 + c) && spriteBit (m.read (base + r)) c)) ∧
      d'.hit = (d.hit || (List.range 8).any fun c =>
        spriteBit (m.read (base + r)) c && fbGet d.fb ((y0 + r) * 64 + (x0 + c))) := by
  obtain ⟨d', h1, h2, h3⟩ := blitCols_ok x0 (y0 + r) (m.read (base + r)) (List.range 8) d hy
    (fun c hc => by have := List.mem_range.mp hc; omega) List.nodup_range
  refine ⟨d', ?_, h2, h3⟩
  rw [blitRows]
  simp only [readByte, Config.ramSize, hr, if_true, h1]

/-- The rows of a sprite that stays on the screen and in RAM. -/
theorem blitRows_ok (m : Memory) (base x0 y0 : Nat) (rs : List Nat) (d : Blit) (hx : x0 ≤ 56)
    (hy : ∀ r ∈ rs, y0 + r < 32) (hm : ∀ r ∈ rs, base + r < 4096) (hn : rs.Nodup) :
    ∃ d', blitRows m base x0 y0 rs d = .ok d' ∧
      (∀ i, fbGet d'.fb i = (fbGet d.fb i ^^ rs.any fun r => (List.range 8).any fun c =>
        i == (y0 + r) * 64 + (x0 + c) && spriteBit (m.read (base + r)) c)) ∧
      d'.hit = (d.hit || rs.any fun r => (List.range 8).any fun c =>
        spriteBit (m.read (base + r)) c && fbGet d.fb ((y0 + r) * 64 + (x0 + c))) := by
  induction rs generalizing d with
  | nil => exact ⟨d, rfl, fun i => by simp, by simp⟩
  | cons r rs ih =>
    rw [List.nodup_cons] at hn
    obtain ⟨d1, h1, h2, h3⟩ := blitRows_cons m base x0 y0 r rs d (hm r (by simp)) hx (hy r (by simp))
    obtain ⟨d', k1, k2, k3⟩ := ih d1 (fun e he => hy e (by simp [he])) (fun e he => hm e (by simp [he])) hn.2
    have off : ∀ e ∈ rs, ∀ c < 8, ∀ c' < 8, (y0 + e) * 64 + (x0 + c) ≠ (y0 + r) * 64 + (x0 + c') := by
      intro e he c hc c' hc' h
      have : e = r := by omega
      exact hn.1 (this ▸ he)
    refine ⟨d', by rw [h1, k1], fun i => ?_, ?_⟩
    · rw [k2 i, h2 i, List.any_cons, Bool.xor_assoc]
      congr 1
      set A := (List.range 8).any fun c => i == (y0 + r) * 64 + (x0 + c) && spriteBit (m.read (base + r)) c with hA
      set B := rs.any fun e => (List.range 8).any fun c =>
        i == (y0 + e) * 64 + (x0 + c) && spriteBit (m.read (base + e)) c with hB
      cases hAv : A with
      | false => simp
      | true =>
        rw [hA, List.any_eq_true] at hAv
        obtain ⟨c', hc', hv⟩ := hAv
        have hi : i = (y0 + r) * 64 + (x0 + c') := by
          simp only [Bool.and_eq_true, beq_iff_eq] at hv; exact hv.1
        have : B = false := by
          rw [hB, List.any_eq_false]
          intro e he
          rw [Bool.not_eq_true, List.any_eq_false]
          intro c hc
          have := off e he c (List.mem_range.mp hc) c' (List.mem_range.mp hc')
          simp only [Bool.and_eq_true, beq_iff_eq, not_and]
          intro h
          exact absurd (h.symm.trans hi) this
        simp [this]
    · rw [k3, h3, List.any_cons, Bool.or_assoc]
      congr 2
      rw [Bool.eq_iff_iff, List.any_eq_true, List.any_eq_true]
      refine exists_congr fun e => and_congr_right fun he => ?_
      rw [List.any_eq_true, List.any_eq_true]
      refine exists_congr fun c => and_congr_right fun hc => ?_
      rw [h2]
      have : ((List.range 8).any fun c' =>
          (y0 + e) * 64 + (x0 + c) == (y0 + r) * 64 + (x0 + c') && spriteBit (m.read (base + r)) c') = false := by
        rw [List.any_eq_false]
        intro c' hc'
        have := off e he c (List.mem_range.mp hc) c' (List.mem_range.mp hc')
        simp [this]
      rw [this, Bool.xor_false]

end Sys2Proof.Machine
end

