-- ==== Sys2Proof/Laws/Encoding.lean ====
section
/-! SUPPORT. The fields of an instruction word built from its parts, and a word rebuilt from its fields
(spec/30_encoding.md R71, R72). -/

namespace Sys2Proof

theorem toNat_append_eq {v w : Nat} (x : BitVec v) (y : BitVec w) : (x ++ y).toNat = x.toNat * 2 ^ w + y.toNat := by
  rw [BitVec.toNat_append, ← Nat.shiftLeft_add_eq_or_of_lt y.isLt, Nat.shiftLeft_eq]

variable (op a b c : Nibble) (kk : Byte) (nnn : Addr12)

theorem toNat_word4 : (word4 op a b c).toNat = op.toNat * 4096 + a.toNat * 256 + b.toNat * 16 + c.toNat := by
  have h : (word4 op a b c).toNat = (op ++ a ++ b ++ c).toNat := rfl
  rw [h, toNat_append_eq, toNat_append_eq, toNat_append_eq]; omega

theorem toNat_wordI : (wordI op a kk).toNat = op.toNat * 4096 + a.toNat * 256 + kk.toNat := by
  have h : (wordI op a kk).toNat = (op ++ a ++ kk).toNat := rfl
  rw [h, toNat_append_eq, toNat_append_eq]; omega

theorem toNat_wordA : (wordA op nnn).toNat = op.toNat * 4096 + nnn.toNat := by
  have h : (wordA op nnn).toNat = (op ++ nnn).toNat := rfl
  rw [h, toNat_append_eq]; norm_num

/-! ### The fields of a built word -/

@[simp] theorem opOf_word4 : opOf (word4 op a b c) = op := by
  apply BitVec.eq_of_toNat_eq
  rw [opOf, BitVec.extractLsb'_toNat, toNat_word4, Nat.shiftRight_eq_div_pow]; omega

@[simp] theorem xOf_word4 : xOf (word4 op a b c) = a.toFin := by
  apply Fin.ext
  show (BitVec.extractLsb' 8 4 (word4 op a b c)).toNat = a.toNat
  rw [BitVec.extractLsb'_toNat, toNat_word4, Nat.shiftRight_eq_div_pow]; omega

@[simp] theorem yOf_word4 : yOf (word4 op a b c) = b.toFin := by
  apply Fin.ext
  show (BitVec.extractLsb' 4 4 (word4 op a b c)).toNat = b.toNat
  rw [BitVec.extractLsb'_toNat, toNat_word4, Nat.shiftRight_eq_div_pow]; omega

@[simp] theorem nOf_word4 : nOf (word4 op a b c) = c := by
  apply BitVec.eq_of_toNat_eq
  rw [nOf, BitVec.extractLsb'_toNat, toNat_word4, Nat.shiftRight_eq_div_pow]; omega

@[simp] theorem opOf_wordI : opOf (wordI op a kk) = op := by
  apply BitVec.eq_of_toNat_eq
  rw [opOf, BitVec.extractLsb'_toNat, toNat_wordI, Nat.shiftRight_eq_div_pow]; omega

@[simp] theorem xOf_wordI : xOf (wordI op a kk) = a.toFin := by
  apply Fin.ext
  show (BitVec.extractLsb' 8 4 (wordI op a kk)).toNat = a.toNat
  rw [BitVec.extractLsb'_toNat, toNat_wordI, Nat.shiftRight_eq_div_pow]; omega

@[simp] theorem kkOf_wordI : kkOf (wordI op a kk) = kk := by
  apply BitVec.eq_of_toNat_eq
  rw [kkOf, BitVec.extractLsb'_toNat, toNat_wordI, Nat.shiftRight_eq_div_pow]; omega

@[simp] theorem opOf_wordA : opOf (wordA op nnn) = op := by
  apply BitVec.eq_of_toNat_eq
  rw [opOf, BitVec.extractLsb'_toNat, toNat_wordA, Nat.shiftRight_eq_div_pow]; omega

@[simp] theorem nnnOf_wordA : nnnOf (wordA op nnn) = nnn := by
  apply BitVec.eq_of_toNat_eq
  rw [nnnOf, BitVec.extractLsb'_toNat, toNat_wordA, Nat.shiftRight_eq_div_pow]; omega

@[simp] theorem toFin_regField (r : Reg) : (regField r).toFin = r := rfl

@[simp] theorem regField_inj {q r : Reg} : regField q = regField r ↔ q = r := by
  constructor
  · intro h; exact congrArg BitVec.toFin h
  · rintro rfl; rfl

/-! ### A word rebuilt from its fields -/

theorem word4_fields (w : Word) : word4 (opOf w) (regField (xOf w)) (regField (yOf w)) (nOf w) = w := by
  apply BitVec.eq_of_toNat_eq
  rw [toNat_word4]
  show (BitVec.extractLsb' 12 4 w).toNat * 4096 + (BitVec.extractLsb' 8 4 w).toNat * 256
    + (BitVec.extractLsb' 4 4 w).toNat * 16 + (BitVec.extractLsb' 0 4 w).toNat = _
  simp only [BitVec.extractLsb'_toNat, Nat.shiftRight_eq_div_pow]
  have := w.isLt
  omega

theorem wordI_fields (w : Word) : wordI (opOf w) (regField (xOf w)) (kkOf w) = w := by
  apply BitVec.eq_of_toNat_eq
  rw [toNat_wordI]
  show (BitVec.extractLsb' 12 4 w).toNat * 4096 + (BitVec.extractLsb' 8 4 w).toNat * 256
    + (BitVec.extractLsb' 0 8 w).toNat = _
  simp only [BitVec.extractLsb'_toNat, Nat.shiftRight_eq_div_pow]
  have := w.isLt
  omega

theorem wordA_fields (w : Word) : wordA (opOf w) (nnnOf w) = w := by
  apply BitVec.eq_of_toNat_eq
  rw [toNat_wordA]
  show (BitVec.extractLsb' 12 4 w).toNat * 4096 + (BitVec.extractLsb' 0 12 w).toNat = _
  simp only [BitVec.extractLsb'_toNat, Nat.shiftRight_eq_div_pow]
  have := w.isLt
  omega

/-- The two bytes of a word, high byte first, are the word (R53). -/
@[simp] theorem wordOfBytes_bytes (w : Word) : wordOfBytes (highByte w) (lowByte w) = w := by
  apply BitVec.eq_of_toNat_eq
  have h : (wordOfBytes (highByte w) (lowByte w)).toNat = (highByte w ++ lowByte w).toNat := rfl
  rw [h, toNat_append_eq]
  simp only [highByte, lowByte, BitVec.extractLsb'_toNat, Nat.shiftRight_eq_div_pow]
  have := w.isLt
  omega

/-- The byte at the lower address is the high half of a fetched word (R53). -/
@[simp] theorem highByte_append (hi lo : Byte) : highByte (hi ++ lo) = hi := by
  apply BitVec.eq_of_getLsbD_eq
  intro i h
  have e : highByte (hi ++ lo) = (hi ++ lo : BitVec (8 + 8)).extractLsb' 8 8 := rfl
  rw [e, BitVec.getLsbD_extractLsb', BitVec.getLsbD_append]
  simp [h]

/-- The byte at the higher address is the low half of a fetched word (R53). -/
@[simp] theorem lowByte_append (hi lo : Byte) : lowByte (hi ++ lo) = lo := by
  apply BitVec.eq_of_getLsbD_eq
  intro i h
  have e : lowByte (hi ++ lo) = (hi ++ lo : BitVec (8 + 8)).extractLsb' 0 8 := rfl
  rw [e, BitVec.getLsbD_extractLsb', BitVec.getLsbD_append]
  simp [h]

/-- The decoder reads the table's word when it is 16 bits. -/
theorem decodeTableWord_eq (w : Word) : decodeTableWord 16 w.toNat = some (decode w) := by
  have h : BitVec.ofNat 16 (w.toNat % 2 ^ 16) = w := by
    apply BitVec.eq_of_toNat_eq
    rw [BitVec.toNat_ofNat]
    have := w.isLt
    omega
  unfold decodeTableWord
  rw [if_pos (Nat.le_refl 16), h]
  show some (decode (wordOfBytes (highByte w) (lowByte w))) = _
  rw [wordOfBytes_bytes]

end Sys2Proof
end

