-- ==== Sys2Proof/Laws/Exec.lean ====
section
/-! SUPPORT. What the fetch, the step and the execute phase can do, each said once. -/

namespace Sys2Proof.Machine

/-- The fetch in RAM. -/
theorem fetchWord_ok {s : State} (h : s.pc.toNat < 4095) :
    fetchWord s = .ok (s.ram.read s.pc.toNat ++ s.ram.read (s.pc.toNat + 1)) := by
  simp [fetchWord, readByte, show s.pc.toNat < 4096 by omega, show s.pc.toNat + 1 < 4096 by omega]

/-- The fetch at 4095 or beyond. -/
theorem fetchWord_error {s : State} (h : 4095 ≤ s.pc.toNat) :
    fetchWord s = .error (.ramOutOfRange (max s.pc.toNat 4096)) := by
  by_cases h1 : s.pc.toNat < 4096
  · have : s.pc.toNat = 4095 := by omega
    simp [fetchWord, readByte, this]
  · simp [fetchWord, readByte, h1]; omega

/-- The fetch answers a word exactly when both its bytes are in RAM. -/
theorem fetchWord_eq_ok {s : State} {w : Word} :
    fetchWord s = .ok w ↔ s.pc.toNat < 4095 ∧ w = s.ram.read s.pc.toNat ++ s.ram.read (s.pc.toNat + 1) := by
  by_cases h : s.pc.toNat < 4095
  · rw [fetchWord_ok h]; simp [h, eq_comm]
  · rw [fetchWord_error (by omega)]; simp [h]

/-- A step that goes on fetched a word, executed its instruction on the advanced state, and ticked (R120). -/
theorem step_next {s t : State} (h : step s = .next t) :
    ∃ w u, s.faulted = false ∧ fetchWord s = .ok w ∧ exec (decode w) s.beginStep = .next u ∧ t = u.tick := by
  unfold step at h
  split at h
  · simp at h
  · next hf =>
    split at h
    · simp [raise] at h
    · next w hw =>
      split at h
      · next u hu =>
        have ht : u.tick = t := by simpa using h
        exact ⟨w, u, by simpa using hf, hw, hu, ht.symm⟩
      · simp at h
      · simp at h

/-- A step that raises a fatal error did so in the fetch or in the execution (R190). -/
theorem step_fault {s : State} {e : Fault} (h : step s = .fault e) :
    s.faulted = false ∧
      (fetchWord s = .error e ∨ ∃ w, fetchWord s = .ok w ∧ exec (decode w) s.beginStep = .fault e) := by
  unfold step at h
  split at h
  · simp at h
  · next hf =>
    refine ⟨by simpa using hf, ?_⟩
    split at h
    · next e' he => left; simpa [raise, he] using h
    · next w hw =>
      right
      split at h
      · simp at h
      · next e' he =>
        have : e' = e := by simpa using h
        exact ⟨w, hw, this ▸ he⟩
      · simp at h

/-- No instruction is refused. -/
theorem exec_ne_refused (i : Instr) (s : State) (r : Refusal) : exec i s ≠ .refused r := by
  cases i <;> intro h <;>
    simp only [exec, execCls, execRet, execJp, execCall, execSei, execSnei, execSe, execLdi, execAddi, execLd, execOr,
      execAnd, execXor, execAdd, execSub, execShr, execSubn, execShl, execSne, execLdix, execJpa, execRnd, execDrw,
      execSkp, execSknp, execRdt, execLdk, execSdt, execSst, execAddix, execLdf, execLdb, execLdxr, execLdrx, execUnk,
      raise] at h <;>
    (repeat' split at h) <;> simp at h

end Sys2Proof.Machine
end

