-- ==== Sys2Proof/Laws/HostOps.lean ====
section
/-! SUPPORT. What the state left by a fatal error can hold, each part said once (spec/60_exceptions.md R190), and the font
region that a reset writes. -/

namespace Sys2Proof.Machine

/-! ### Stored bytes -/

/-- A store that may have been cut short keeps the canonical form. -/
theorem residueStore_wf (n : Nat) (bs : List Byte) (m : Memory) (a k : Nat) (hm : m.wf) :
    (residueStore n m a k bs).wf := by
  induction bs generalizing m a k with
  | nil => exact hm
  | cons b bs ih =>
    rw [residueStore]
    apply ih
    split
    · next h => exact Memory.write_wf b hm h.1
    · exact hm

/-- Outside the bytes of the store every byte is old. -/
theorem residueStore_read_outside (n : Nat) (bs : List Byte) (m : Memory) (a k b : Nat) (hm : m.wf)
    (hb : b < a ∨ a + bs.length ≤ b) : (residueStore n m a k bs).read b = m.read b := by
  induction bs generalizing m a k with
  | nil => rfl
  | cons v bs ih =>
    rw [residueStore]
    simp only [List.length_cons] at hb
    by_cases h : a < Config.ramSize ∧ Config.residueIsNew n (4096 + k)
    · rw [if_pos h, ih _ _ _ (Memory.write_wf v hm h.1) (by omega), Memory.read_write _ _ _ _ hm, if_neg (by omega)]
    · rw [if_neg h, ih _ _ _ hm (by omega)]

/-- A byte of the store is old, or new if its address is in RAM. -/
theorem residueStore_read_inside (n : Nat) (bs : List Byte) (m : Memory) (a k j : Nat) (v : Byte) (hm : m.wf)
    (hj : bs[j]? = some v) :
    (residueStore n m a k bs).read (a + j) = m.read (a + j) ∨
      (a + j < 4096 ∧ (residueStore n m a k bs).read (a + j) = v) := by
  induction bs generalizing m a k j with
  | nil => simp at hj
  | cons b bs ih =>
    rw [residueStore]
    cases j with
    | zero =>
      obtain rfl : b = v := by simpa using hj
      by_cases h : a < Config.ramSize ∧ Config.residueIsNew n (4096 + k)
      · right
        rw [if_pos h, residueStore_read_outside _ _ _ _ _ _ (Memory.write_wf b hm h.1) (by omega),
          Memory.read_write _ _ _ _ hm]
        exact ⟨h.1, if_pos rfl⟩
      · left
        rw [if_neg h, residueStore_read_outside _ _ _ _ _ _ hm (by omega)]
    | succ j =>
      have hj' : bs[j]? = some v := by simpa using hj
      by_cases h : a < Config.ramSize ∧ Config.residueIsNew n (4096 + k)
      · rw [if_pos h]
        have := ih (m.write a b) (a + 1) (k + 1) j (Memory.write_wf b hm h.1) hj'
        rw [Memory.read_write _ _ _ _ hm, if_neg (by omega)] at this
        rwa [show a + (j + 1) = a + 1 + j by omega]
      · rw [if_neg h]
        have := ih m (a + 1) (k + 1) j hm hj'
        rwa [show a + (j + 1) = a + 1 + j by omega]

/-! ### Pixels -/

/-- A cell of the framebuffer a whole DRW would leave (R141). -/
theorem fbGet_drawnPixels (m : Memory) (base x0 y0 n : Nat) (fb : Vector Bool 2048) {px py : Nat} (hx : px < 64)
    (hy : py < 32) :
    fbGet (drawnPixels m base x0 y0 n fb) (py * 64 + px) = (fbGet fb (py * 64 + px) ^^
      (decide (x0 ≤ px ∧ px < x0 + 8 ∧ y0 ≤ py ∧ py < y0 + n ∧ base + (py - y0) < 4096) &&
        spriteBit (m.read (base + (py - y0))) (px - x0))) := by
  have h : py * 64 + px < 2048 := by omega
  have e1 : (py * 64 + px) % 64 = px := by omega
  have e2 : (py * 64 + px) / 64 = py := by omega
  unfold fbGet drawnPixels
  simp only [Vector.getElem?_ofFn, h, dite_true, Option.getD_some, e1, e2, Config.ramSize]
  split
  · next hc => simp [hc, h]
  · next hc => simp [hc, h]

/-- Each pixel of a mixed framebuffer is the old one or the new one. -/
theorem fbGet_mixPixels (n : Nat) (old new : Vector Bool 2048) (i : Nat) :
    fbGet (mixPixels n old new) i = fbGet old i ∨ fbGet (mixPixels n old new) i = fbGet new i := by
  unfold fbGet mixPixels
  by_cases h : i < 2048
  · simp only [h, Option.getD_some, Vector.getElem?_eq_getElem, Vector.getElem_ofFn]
    cases Config.residueIsNew n i <;> simp
  · left
    rw [Vector.getElem?_eq_none (by omega), Vector.getElem?_eq_none (by omega)]

/-- The flag a faulted DRW leaves is old, 0, or 1 after a collision. -/
theorem residueFlag_cases (n : Nat) (old : Byte) (hit : Bool) :
    residueFlag n old hit = old ∨ residueFlag n old hit = 0 ∨ (residueFlag n old hit = 1 ∧ hit = true) := by
  unfold residueFlag
  cases Config.residueIsNew n 3000 <;> cases Config.residueIsNew n 3001 <;> cases hit <;> simp [flagByte]

/-- Some pixel of the screen is on in the first framebuffer and off in the second. -/
theorem pixelsTurnedOff_iff (old new : Vector Bool 2048) :
    pixelsTurnedOff old new = true ↔
      ∃ px < 64, ∃ py < 32, fbGet old (py * 64 + px) = true ∧ fbGet new (py * 64 + px) = false := by
  unfold pixelsTurnedOff
  simp only [List.any_eq_true, List.mem_range, Bool.and_eq_true, Bool.not_eq_true']
  constructor
  · rintro ⟨i, hi, h⟩
    refine ⟨i % 64, by omega, i / 64, by omega, ?_⟩
    rwa [show i / 64 * 64 + i % 64 = i by omega]
  · rintro ⟨px, hx, py, hy, h⟩
    exact ⟨py * 64 + px, by omega, h⟩

/-- The bytes of a register dump, `x[0]` first (R169). -/
theorem getElem?_regsThrough (s : State) {X q : Reg} (h : q ≤ X) : (s.regsThrough X)[q.val]? = some (s.reg q) := by
  simpa [State.regsThrough, List.getElem?_take, State.reg] using h

/-! ### The whole residue -/

/-- No instruction's residue touches `I`, the stack, the keypad, the timers or `pc`. -/
theorem residueOf_frame (i : Instr) (s : State) :
    (residueOf i s).I = s.I ∧ (residueOf i s).sp = s.sp ∧ (residueOf i s).stack = s.stack ∧
      (residueOf i s).key = s.key ∧ (residueOf i s).dt = s.dt ∧ (residueOf i s).st = s.st ∧
      (residueOf i s).pc = s.pc ∧ (residueOf i s).draws = s.draws := by
  cases i <;> simp [residueOf]

/-- Every residue keeps RAM in its canonical form. -/
theorem residueOf_wf (i : Instr) (s : State) (hm : s.ram.wf) : (residueOf i s).ram.wf := by
  cases i <;> first | exact hm | exact residueStore_wf _ _ _ _ _ hm

/-- The framebuffer of a faulted DRW. -/
theorem fb_residueOf_drw (X Y : Reg) (N : Nibble) (s : State) :
    (residueOf (.drw X Y N) s).fb =
      mixPixels s.draws s.fb (drawnPixels s.ram (s.effAddr 0) (s.drawX X) (s.drawY Y) N.toNat s.fb) := rfl

theorem x_residueOf_drw (X Y : Reg) (N : Nibble) (s : State) :
    (residueOf (.drw X Y N) s).x = s.x.set 15 (residueFlag s.draws (s.reg 15)
      (pixelsTurnedOff s.fb (drawnPixels s.ram (s.effAddr 0) (s.drawX X) (s.drawY Y) N.toNat s.fb))) := rfl

/-- The registers of a faulted DRW: only `x[15]` can change. -/
theorem reg_residueOf_drw (X Y : Reg) (N : Nibble) (s : State) (q : Reg) :
    (residueOf (.drw X Y N) s).reg q = if q = 15 then residueFlag s.draws (s.reg 15)
      (pixelsTurnedOff s.fb (drawnPixels s.ram (s.effAddr 0) (s.drawX X) (s.drawY Y) N.toNat s.fb)) else s.reg q := by
  have h : (15 = q.val) ↔ q = 15 := ⟨fun h => Fin.ext h.symm, fun h => h ▸ rfl⟩
  unfold State.reg
  simp only [x_residueOf_drw, Vector.getElem_set, h]
  rfl

/-- A register of a faulted LDRX is old, or the loaded byte where that byte is in RAM; one above `X` is old. -/
theorem reg_residueOf_ldrx (X : Reg) (s : State) (q : Reg) :
    (residueOf (.ldrx X) s).reg q = s.reg q ∨
      (q ≤ X ∧ s.I.toNat + q.val < 4096 ∧ (residueOf (.ldrx X) s).reg q = s.ram.read (s.I.toNat + q.val)) := by
  unfold residueOf State.reg State.effAddr
  simp only [Vector.getElem_ofFn]
  split
  · next h => exact .inr ⟨h.1, h.2.1, rfl⟩
  · exact .inl rfl

/-! ### The font -/

/-- Loading FONT_DATA at FONT_BASE leaves it readable there (R211). -/
theorem read_load_font (m : Memory) (hm : m.wf) {k : Nat} (hk : k < 80) :
    (m.load fontAddr Config.fontData.toList).read (fontAddr + k) = (Config.fontData[k]?).getD 0 := by
  have hl : Config.fontData.toList.length = 80 := by simp
  have := fontAddr_le
  rw [(Memory.load_read _ m fontAddr hm (by omega)).2, if_pos (by omega), show fontAddr + k - fontAddr = k by omega]
  simp

end Sys2Proof.Machine
end

