-- ==== Sys2Proof/Laws/PerInstr.lean ====
section
/-! SUPPORT. Per instruction: the encoder puts the family's high nibble, the selector and every operand in the fields that
spec/30_encoding.md R71, R72 and R90 give them. -/

namespace Sys2Proof.Laws.FieldsPlaced

/-- Where the fields of an instruction stand in its word (R90). -/
def Statement : Instr → Prop
  | .cls => encode .cls = 0x00E0
  | .ret => encode .ret = 0x00EE
  | .jp NNN => opOf (encode (.jp NNN)) = 0x1 ∧ nnnOf (encode (.jp NNN)) = NNN
  | .call NNN => opOf (encode (.call NNN)) = 0x2 ∧ nnnOf (encode (.call NNN)) = NNN
  | .sei X KK =>
    opOf (encode (.sei X KK)) = 0x3 ∧ xOf (encode (.sei X KK)) = X ∧ kkOf (encode (.sei X KK)) = KK
  | .snei X KK =>
    opOf (encode (.snei X KK)) = 0x4 ∧ xOf (encode (.snei X KK)) = X ∧ kkOf (encode (.snei X KK)) = KK
  | .se X Y =>
    opOf (encode (.se X Y)) = 0x5 ∧ xOf (encode (.se X Y)) = X ∧ yOf (encode (.se X Y)) = Y ∧ nOf (encode (.se X Y)) = 0x0
  | .ldi X KK =>
    opOf (encode (.ldi X KK)) = 0x6 ∧ xOf (encode (.ldi X KK)) = X ∧ kkOf (encode (.ldi X KK)) = KK
  | .addi X KK =>
    opOf (encode (.addi X KK)) = 0x7 ∧ xOf (encode (.addi X KK)) = X ∧ kkOf (encode (.addi X KK)) = KK
  | .ld X Y =>
    opOf (encode (.ld X Y)) = 0x8 ∧ xOf (encode (.ld X Y)) = X ∧ yOf (encode (.ld X Y)) = Y ∧ nOf (encode (.ld X Y)) = 0x0
  | .or X Y =>
    opOf (encode (.or X Y)) = 0x8 ∧ xOf (encode (.or X Y)) = X ∧ yOf (encode (.or X Y)) = Y ∧ nOf (encode (.or X Y)) = 0x1
  | .and X Y =>
    opOf (encode (.and X Y)) = 0x8 ∧ xOf (encode (.and X Y)) = X ∧ yOf (encode (.and X Y)) = Y ∧ nOf (encode (.and X Y)) = 0x2
  | .xor X Y =>
    opOf (encode (.xor X Y)) = 0x8 ∧ xOf (encode (.xor X Y)) = X ∧ yOf (encode (.xor X Y)) = Y ∧ nOf (encode (.xor X Y)) = 0x3
  | .add X Y =>
    opOf (encode (.add X Y)) = 0x8 ∧ xOf (encode (.add X Y)) = X ∧ yOf (encode (.add X Y)) = Y ∧ nOf (encode (.add X Y)) = 0x4
  | .sub X Y =>
    opOf (encode (.sub X Y)) = 0x8 ∧ xOf (encode (.sub X Y)) = X ∧ yOf (encode (.sub X Y)) = Y ∧ nOf (encode (.sub X Y)) = 0x5
  | .shr X Y =>
    opOf (encode (.shr X Y)) = 0x8 ∧ xOf (encode (.shr X Y)) = X ∧ yOf (encode (.shr X Y)) = Y ∧ nOf (encode (.shr X Y)) = 0x6
  | .subn X Y =>
    opOf (encode (.subn X Y)) = 0x8 ∧ xOf (encode (.subn X Y)) = X ∧ yOf (encode (.subn X Y)) = Y ∧ nOf (encode (.subn X Y)) = 0x7
  | .shl X Y =>
    opOf (encode (.shl X Y)) = 0x8 ∧ xOf (encode (.shl X Y)) = X ∧ yOf (encode (.shl X Y)) = Y ∧ nOf (encode (.shl X Y)) = 0xe
  | .sne X Y =>
    opOf (encode (.sne X Y)) = 0x9 ∧ xOf (encode (.sne X Y)) = X ∧ yOf (encode (.sne X Y)) = Y ∧ nOf (encode (.sne X Y)) = 0x0
  | .ldix NNN => opOf (encode (.ldix NNN)) = 0xa ∧ nnnOf (encode (.ldix NNN)) = NNN
  | .jpa NNN => opOf (encode (.jpa NNN)) = 0xb ∧ nnnOf (encode (.jpa NNN)) = NNN
  | .rnd X KK =>
    opOf (encode (.rnd X KK)) = 0xc ∧ xOf (encode (.rnd X KK)) = X ∧ kkOf (encode (.rnd X KK)) = KK
  | .drw X Y N =>
    opOf (encode (.drw X Y N)) = 0xd ∧ xOf (encode (.drw X Y N)) = X ∧ yOf (encode (.drw X Y N)) = Y ∧ nOf (encode (.drw X Y N)) = N
  | .skp X => opOf (encode (.skp X)) = 0xe ∧ xOf (encode (.skp X)) = X ∧ kkOf (encode (.skp X)) = 0x9e
  | .sknp X => opOf (encode (.sknp X)) = 0xe ∧ xOf (encode (.sknp X)) = X ∧ kkOf (encode (.sknp X)) = 0xa1
  | .rdt X => opOf (encode (.rdt X)) = 0xf ∧ xOf (encode (.rdt X)) = X ∧ kkOf (encode (.rdt X)) = 0x7
  | .ldk X => opOf (encode (.ldk X)) = 0xf ∧ xOf (encode (.ldk X)) = X ∧ kkOf (encode (.ldk X)) = 0xa
  | .sdt X => opOf (encode (.sdt X)) = 0xf ∧ xOf (encode (.sdt X)) = X ∧ kkOf (encode (.sdt X)) = 0x15
  | .sst X => opOf (encode (.sst X)) = 0xf ∧ xOf (encode (.sst X)) = X ∧ kkOf (encode (.sst X)) = 0x18
  | .addix X => opOf (encode (.addix X)) = 0xf ∧ xOf (encode (.addix X)) = X ∧ kkOf (encode (.addix X)) = 0x1e
  | .ldf X => opOf (encode (.ldf X)) = 0xf ∧ xOf (encode (.ldf X)) = X ∧ kkOf (encode (.ldf X)) = 0x29
  | .ldb X => opOf (encode (.ldb X)) = 0xf ∧ xOf (encode (.ldb X)) = X ∧ kkOf (encode (.ldb X)) = 0x33
  | .ldxr X => opOf (encode (.ldxr X)) = 0xf ∧ xOf (encode (.ldxr X)) = X ∧ kkOf (encode (.ldxr X)) = 0x55
  | .ldrx X => opOf (encode (.ldrx X)) = 0xf ∧ xOf (encode (.ldrx X)) = X ∧ kkOf (encode (.ldrx X)) = 0x65
  | .unk w => encode (.unk w) = w

theorem cls : Statement .cls := rfl

theorem ret : Statement .ret := rfl

theorem jp (NNN : Addr12) : Statement (.jp NNN) := by simp [Statement, encode]

theorem call (NNN : Addr12) : Statement (.call NNN) := by simp [Statement, encode]

theorem sei (X : Reg) (KK : Byte) : Statement (.sei X KK) := by simp [Statement, encode]

theorem snei (X : Reg) (KK : Byte) : Statement (.snei X KK) := by simp [Statement, encode]

theorem se (X Y : Reg) : Statement (.se X Y) := by simp [Statement, encode]

theorem ldi (X : Reg) (KK : Byte) : Statement (.ldi X KK) := by simp [Statement, encode]

theorem addi (X : Reg) (KK : Byte) : Statement (.addi X KK) := by simp [Statement, encode]

theorem ld (X Y : Reg) : Statement (.ld X Y) := by simp [Statement, encode]

theorem or (X Y : Reg) : Statement (.or X Y) := by simp [Statement, encode]

theorem and (X Y : Reg) : Statement (.and X Y) := by simp [Statement, encode]

theorem xor (X Y : Reg) : Statement (.xor X Y) := by simp [Statement, encode]

theorem add (X Y : Reg) : Statement (.add X Y) := by simp [Statement, encode]

theorem sub (X Y : Reg) : Statement (.sub X Y) := by simp [Statement, encode]

theorem shr (X Y : Reg) : Statement (.shr X Y) := by simp [Statement, encode]

theorem subn (X Y : Reg) : Statement (.subn X Y) := by simp [Statement, encode]

theorem shl (X Y : Reg) : Statement (.shl X Y) := by simp [Statement, encode]

theorem sne (X Y : Reg) : Statement (.sne X Y) := by simp [Statement, encode]

theorem ldix (NNN : Addr12) : Statement (.ldix NNN) := by simp [Statement, encode]

theorem jpa (NNN : Addr12) : Statement (.jpa NNN) := by simp [Statement, encode]

theorem rnd (X : Reg) (KK : Byte) : Statement (.rnd X KK) := by simp [Statement, encode]

theorem drw (X Y : Reg) (N : Nibble) : Statement (.drw X Y N) := by simp [Statement, encode]

theorem skp (X : Reg) : Statement (.skp X) := by simp [Statement, encode]

theorem sknp (X : Reg) : Statement (.sknp X) := by simp [Statement, encode]

theorem rdt (X : Reg) : Statement (.rdt X) := by simp [Statement, encode]

theorem ldk (X : Reg) : Statement (.ldk X) := by simp [Statement, encode]

theorem sdt (X : Reg) : Statement (.sdt X) := by simp [Statement, encode]

theorem sst (X : Reg) : Statement (.sst X) := by simp [Statement, encode]

theorem addix (X : Reg) : Statement (.addix X) := by simp [Statement, encode]

theorem ldf (X : Reg) : Statement (.ldf X) := by simp [Statement, encode]

theorem ldb (X : Reg) : Statement (.ldb X) := by simp [Statement, encode]

theorem ldxr (X : Reg) : Statement (.ldxr X) := by simp [Statement, encode]

theorem ldrx (X : Reg) : Statement (.ldrx X) := by simp [Statement, encode]

theorem unk (w : Word) : Statement (.unk w) := rfl

end Sys2Proof.Laws.FieldsPlaced
end

