-- ==== Sys2Proof/Tests/Slice0.lean ====
section
/-! SUPPORT. Tests of the model and witnesses for the statements. Expected values come from spec/95_test_vectors.md (its row
is named: V-A1 and so on), from the encodings of spec/30_encoding.md R75 and R90, or from the rule named. -/

namespace Sys2Proof.Tests

open Sys2Proof Sys2Proof.Machine

/-! ## Helpers -/

/-- The state after reset with some registers and `I` set. -/
def start (regs : List (Reg × Byte)) (i : Word := 0x300) : State :=
  (regs.foldl (fun s p => s.setReg p.1 p.2) State.reset).setI i

/-- One step from 0x200 on the given instruction word. -/
def stepOn (w : Nat) (s : State) : Result := step (s.withFetchWord 16 w)

/-- A view of the next state, if there is one. -/
def view {α : Type} (f : State → α) (o : Result) : Option α :=
  match o with
  | .next t => some (f t)
  | .fault _ => none
  | .refused _ => none

/-- The fatal error, if there is one. -/
def errorOf (o : Result) : Option Fault :=
  match o with
  | .next _ => none
  | .fault e => some e
  | .refused _ => none

theorem next_of_view {α : Type} {f : State → α} {o : Result} {a : α} (h : view f o = some a) :
    ∃ t, o = .next t ∧ f t = a := by
  cases o with
  | next t => exact ⟨t, rfl, by simpa [view] using h⟩
  | fault e => cases h
  | refused r => cases h

/-- Destination, flags register and program counter. -/
def viewReg (q : Reg) (t : State) : Byte × Byte × Word := (t.reg q, t.reg 15, t.pc)

/-- Which framebuffer cells are on, of those in a range. -/
def lit (lo n : Nat) (t : State) : List Nat := (List.range' lo n).filter fun k => fbGet t.fb k

/-! ## Well-formedness: the one check, with ill-formed terms it refuses (R86, R88) -/

theorem test_unk_of_cls_is_ill_formed : wellFormed (.unk 0x00E0) = false := by decide
theorem test_unk_of_ret_is_ill_formed : wellFormed (.unk 0x00EE) = false := by decide
theorem test_unk_of_se_is_ill_formed : wellFormed (.unk 0x5120) = false := by decide
theorem test_unk_of_shl_is_ill_formed : wellFormed (.unk 0x812E) = false := by decide
theorem test_unk_of_skp_is_ill_formed : wellFormed (.unk 0xE39E) = false := by decide
theorem test_unk_of_ldrx_is_ill_formed : wellFormed (.unk 0xF265) = false := by decide
theorem test_unk_of_drw_is_ill_formed : wellFormed (.unk 0xD010) = false := by decide
theorem test_unk_of_data_is_well_formed :
    [0x0000, 0x5121, 0x8128, 0xE100, 0xF1FF, 0x00E1, 0x0123, 0x9AB1].all (fun w => wellFormed (.unk w)) = true := by
  decide

/-! ## Decoding: a word written out for every constructor, from the patterns of R75 and R90 -/

theorem test_decode_zero : decode 0x00E0 = .cls ∧ decode 0x00EE = .ret := by decide
theorem test_decode_address : decode 0x1218 = .jp 0x218 ∧ decode 0x2FFE = .call 0xFFE ∧ decode 0xA300 = .ldix 0x300 ∧
    decode 0xBABC = .jpa 0xABC := by decide
theorem test_decode_immediate : decode 0x3F01 = .sei 15 0x01 ∧ decode 0x40A5 = .snei 0 0xA5 ∧
    decode 0x6AFF = .ldi 10 0xFF ∧ decode 0x7107 = .addi 1 0x07 ∧ decode 0xC10F = .rnd 1 0x0F := by decide
theorem test_decode_skips : decode 0x5120 = .se 1 2 ∧ decode 0x9AB0 = .sne 10 11 := by decide
theorem test_decode_eight_low : decode 0x8120 = .ld 1 2 ∧ decode 0x8121 = .or 1 2 ∧ decode 0x8122 = .and 1 2 ∧
    decode 0x8123 = .xor 1 2 ∧ decode 0x8124 = .add 1 2 := by decide
theorem test_decode_eight_high : decode 0x8125 = .sub 1 2 ∧ decode 0x8126 = .shr 1 2 ∧ decode 0x8127 = .subn 1 2 ∧
    decode 0x812E = .shl 1 2 := by decide
theorem test_decode_draw : decode 0xDAB5 = .drw 10 11 5 ∧ decode 0xD010 = .drw 0 1 0 := by decide
theorem test_decode_keys : decode 0xE39E = .skp 3 ∧ decode 0xE3A1 = .sknp 3 := by decide
theorem test_decode_f_timers : decode 0xF407 = .rdt 4 ∧ decode 0xF30A = .ldk 3 ∧ decode 0xF015 = .sdt 0 ∧
    decode 0xF018 = .sst 0 := by decide
theorem test_decode_f_memory : decode 0xF01E = .addix 0 ∧ decode 0xF129 = .ldf 1 ∧ decode 0xF133 = .ldb 1 ∧
    decode 0xF555 = .ldxr 5 ∧ decode 0xF565 = .ldrx 5 := by decide
theorem test_decode_unknown : decode 0x0000 = .unk 0x0000 ∧ decode 0x8128 = .unk 0x8128 ∧ decode 0x9AB1 = .unk 0x9AB1 ∧
    decode 0xE100 = .unk 0xE100 ∧ decode 0xF1FF = .unk 0xF1FF := by decide
theorem test_decode_bytes_big_endian : decodeBytes [0x60, 0xC8, 0x80] = some (.ldi 0 0xC8, [0x80]) := by decide
theorem test_decode_bytes_too_short : decodeBytes [0x60] = none := by decide
theorem test_decode_table_word : decodeTableWord 16 0x8124 = some (.add 1 2) := by decide

/-! ## Register, arithmetic, logic, shift and random instructions -/

/-- P1, step 1. -/
theorem test_ldi : view (viewReg 0) (stepOn 0x60C8 (start [])) = some (200, 0, 0x202) := by decide
/-- P2, step 6: 3 + 0xFF wraps to 2, and R101: no carry. -/
theorem test_addi_wraps : view (viewReg 0) (stepOn 0x70FF (start [(0, 3)])) = some (2, 0, 0x202) := by decide
/-- R102. -/
theorem test_ld : view (fun t => (t.reg 1, t.reg 2)) (stepOn 0x8120 (start [(1, 1), (2, 9)])) = some (9, 9) := by decide
/-- V-A5. -/
theorem test_or : view (viewReg 1) (stepOn 0x8121 (start [(1, 0xF0), (2, 0x0F)])) = some (0xFF, 0, 0x202) := by decide
/-- V-A6. -/
theorem test_and : view (viewReg 1) (stepOn 0x8122 (start [(1, 0xF0), (2, 0x3C)])) = some (0x30, 0, 0x202) := by decide
/-- V-A7. -/
theorem test_xor : view (viewReg 1) (stepOn 0x8123 (start [(1, 0xF0), (2, 0x3C)])) = some (0xCC, 0, 0x202) := by decide
/-- The ADD column: 200 + 100. -/
theorem test_add_carry : view (viewReg 0) (stepOn 0x8014 (start [(0, 200), (1, 100)])) = some (44, 1, 0x202) := by decide
/-- V-A10: `Y` = 15 reads the old flag. -/
theorem test_add_reads_old_flag : view (viewReg 2) (stepOn 0x82F4 (start [(2, 10), (15, 1)])) = some (11, 0, 0x202) := by
  decide
/-- The SUB column: 5 - 10. -/
theorem test_sub_borrow : view (viewReg 0) (stepOn 0x8015 (start [(0, 5), (1, 10)])) = some (251, 0, 0x202) := by decide
/-- The SUB column: 7 - 7. -/
theorem test_sub_equal : view (viewReg 0) (stepOn 0x8015 (start [(0, 7), (1, 7)])) = some (0, 1, 0x202) := by decide
/-- The SUBN column: 10 - 5. -/
theorem test_subn : view (viewReg 0) (stepOn 0x8017 (start [(0, 5), (1, 10)])) = some (5, 1, 0x202) := by decide
/-- The SUBN column: 5 - 10. -/
theorem test_subn_borrow : view (viewReg 0) (stepOn 0x8017 (start [(0, 10), (1, 5)])) = some (251, 0, 0x202) := by decide
/-- V-A8. -/
theorem test_shr : view (fun t => (t.reg 1, t.reg 2, t.reg 15)) (stepOn 0x8126 (start [(1, 0x81), (2, 7)])) =
    some (0x40, 7, 1) := by decide
/-- V-A9. -/
theorem test_shl : view (fun t => (t.reg 1, t.reg 2, t.reg 15)) (stepOn 0x812E (start [(1, 0x81), (2, 7)])) =
    some (0x02, 7, 1) := by decide
/-- R111, for every value of the `rnd` byte. -/
theorem test_rnd_masked : view (fun t => t.reg 1) (exec (.rnd 1 0x0F) (start [])) = some (Config.rnd 0 &&& 0x0F) := rfl

/-! ## Control -/

/-- V-C1. -/
theorem test_jp : view (fun t => t.pc) (stepOn 0x1218 (start [])) = some 0x218 := by decide
/-- V-C4: the target may lie beyond RAM. -/
theorem test_jpa : view (fun t => t.pc) (stepOn 0xBFFF (start [(0, 255)])) = some 0x10FE := by decide
/-- V-C5, with the word at 0x200. -/
theorem test_call : view (fun t => (t.sp, t.slot 1, t.pc)) (stepOn 0x2210 (start [])) = some (1, 0x202, 0x210) := by decide
/-- V-F2: the sixteenth nested call. -/
theorem test_call_overflow : errorOf (stepOn 0x2202 { start [] with sp := 15 }) = some (.stackOverflow 15) := by decide
/-- V-C6. -/
theorem test_ret : view (fun t => (t.pc, t.sp))
    (stepOn 0x00EE { start [] with sp := 1, stack := State.reset.stack.set 1 0x206 }) = some (0x206, 0) := by decide
/-- V-F1. -/
theorem test_ret_underflow : errorOf (stepOn 0x00EE (start [])) = some (.stackUnderflow 0) := by decide
/-- V-C11 and V-C7. -/
theorem test_sei : view (fun t => t.pc) (stepOn 0x3F01 (start [(15, 1)])) = some 0x204 ∧
    view (fun t => t.pc) (stepOn 0x3001 (start [])) = some 0x202 := by decide
/-- V-C8. -/
theorem test_snei : view (fun t => t.pc) (stepOn 0x4001 (start [])) = some 0x204 := by decide
/-- R127. -/
theorem test_se : view (fun t => t.pc) (stepOn 0x5120 (start [(1, 9), (2, 9)])) = some 0x204 := by decide
/-- R128 and V-C10. -/
theorem test_sne : view (fun t => t.pc) (stepOn 0x9120 (start [(1, 9), (2, 8)])) = some 0x204 ∧
    view (fun t => t.pc) (stepOn 0x9110 (start [(1, 9)])) = some 0x202 := by decide
/-- Unknown/data words (95_test_vectors.md): reported, and passed over. -/
theorem test_unk : view (fun t => (t.unknown, t.pc)) (stepOn 0x8128 (start [])) = some (some 0x8128, 0x202) := by decide
/-- V-F13. -/
theorem test_fetch_at_4095 : errorOf (step ((start []).setPc 4095)) = some (.ramOutOfRange 4096) := by decide
/-- V-F14. -/
theorem test_fetch_beyond_ram : errorOf (step ((start []).setPc 0x1001)) = some (.ramOutOfRange 4097) := by decide

/-! ## Display -/

/-- RAM with a sprite at 0x300. -/
def sprite (bs : List Byte) (s : State) : State := s.setRam (s.ram.load 0x300 bs)

/-- V-D1, R147 (b): the origin wraps to (6, 1). -/
theorem test_drw_wraps_origin : view (fun t => (lit 64 16 t, t.reg 15))
    (exec (.drw 0 1 1) (sprite [0xFF] (start [(0, 70), (1, 33)]))) = some ([70, 71, 72, 73, 74, 75, 76, 77], 0) := by
  decide +kernel
/-- V-D4: 0x3C over 0xF0 at the origin leaves cells 0, 1, 4 and 5, and a collision. -/
theorem test_drw_collides : view (fun t => (lit 0 8 t, t.reg 15))
    (exec (.drw 0 1 1) (sprite [0x3C] { start [] with fb := ((((fbSet (fbSet fbClear 0 true) 1 true)).set 2 true).set 3 true) })) =
      some ([0, 1, 4, 5], 1) := by
  decide +kernel
/-- R147 (a), the source's own: the second draw of a full row cancels the first and reports the collision. -/
theorem test_drw_twice : view (fun t => view (fun u => (lit 0 16 u, u.reg 15)) (exec (.drw 0 1 1) t))
    (exec (.drw 0 1 1) (sprite [0xFF] (start []))) = some (some ([], 1)) := by decide +kernel
/-- V-F3: (64, 0), though the set bits would fit. -/
theorem test_drw_past_right : errorOf (exec (.drw 0 1 1) (sprite [0xF0] (start [(0, 60)]))) =
    some (.framebufferOutOfRange 64 0) := by decide +kernel
/-- V-F5. -/
theorem test_drw_past_bottom : errorOf (exec (.drw 0 1 3) (sprite [1, 2, 3] (start [(0, 56), (1, 30)]))) =
    some (.framebufferOutOfRange 56 32) := by decide +kernel
/-- V-F9. -/
theorem test_drw_past_ram : errorOf (exec (.drw 0 1 2) (start [] 0xFFF)) = some (.ramOutOfRange 4096) := by decide +kernel
/-- V-D6. -/
theorem test_cls : view (fun t => (lit 0 8 t, t.fbChanged)) (exec .cls { start [] with fb := fbSet fbClear 5 true }) =
    some ([], true) := by decide +kernel

/-! ## Keypad and timers -/

/-- V-K1, V-K2. -/
theorem test_skp : view (fun t => t.pc) (stepOn 0xE39E (setKey 4 true (start [(3, 4)]))) = some 0x204 ∧
    view (fun t => t.pc) (stepOn 0xE39E (start [(3, 4)])) = some 0x202 := by decide
/-- V-F10. -/
theorem test_skp_index : errorOf (stepOn 0xE09E (start [(0, 16)])) = some (.keypadIndexOutOfRange 16) := by decide
/-- V-K3. -/
theorem test_sknp : view (fun t => t.pc) (stepOn 0xE3A1 (start [(3, 4)])) = some 0x204 := by decide
/-- V-F11. -/
theorem test_sknp_index : errorOf (stepOn 0xE0A1 (start [(0, 16)])) = some (.keypadIndexOutOfRange 16) := by decide
/-- V-K5: the lowest key wins. -/
theorem test_ldk : view (fun t => (t.reg 3, t.pc)) (stepOn 0xF30A (setKey 9 true (setKey 4 true (start [])))) =
    some (4, 0x202) := by decide
/-- V-K4: the spin. -/
theorem test_ldk_spins : view (fun t => (t.reg 3, t.pc, t.dt)) (stepOn 0xF30A ((start [(3, 7)]).setDt 9)) =
    some (7, 0x200, 8) := by decide
/-- V-K9. -/
theorem test_rdt : view (fun t => (t.reg 4, t.dt)) (stepOn 0xF407 ((start []).setDt 5)) = some (5, 4) := by decide
/-- V-K6, V-K10. -/
theorem test_sdt : view (fun t => t.dt) (stepOn 0xF015 (start [(0, 10)])) = some 9 ∧
    view (fun t => t.dt) (stepOn 0xF015 (start [])) = some 0 := by decide
/-- V-K7. -/
theorem test_sst : view (fun t => (t.st, t.dt)) (stepOn 0xF018 (start [(0, 1)])) = some (0, 0) := by decide

/-! ## Index and memory -/

/-- V-M1. -/
theorem test_ldix : view (fun t => t.I) (stepOn 0xA300 (start [] 0)) = some 0x300 := by decide
/-- V-M2. -/
theorem test_addix : view (fun t => (t.I, t.reg 15)) (stepOn 0xF01E (start [(0, 1)] 0xFFF)) = some (0x1000, 0) := by decide
/-- V-M3: the wrap at 16 bits. -/
theorem test_addix_wraps : view (fun t => (t.I, t.reg 15)) (stepOn 0xF01E (start [(0, 0xFF)] 0xFF02)) = some (0x0001, 0) := by
  decide
/-- V-M5: 255 gives FONT_BASE + 0x4FB, and 7 gives FONT_BASE + 0x023. -/
theorem test_ldf : view (fun t => t.I) (exec (.ldf 0) (start [(0, 255)])) = some (BitVec.ofNat 16 (Config.fontBase.val + 0x4FB)) ∧
    view (fun t => t.I) (exec (.ldf 0) (start [(0, 7)])) = some (BitVec.ofNat 16 (Config.fontBase.val + 0x023)) := ⟨rfl, rfl⟩
/-- V-M6, v = 199. -/
theorem test_ldb : view (fun t => [t.ram.read 0x300, t.ram.read 0x301, t.ram.read 0x302, t.ram.read 0x303])
    (stepOn 0xF033 (start [(0, 199)])) = some [1, 9, 9, 0] := by decide
/-- V-F6: the third byte. -/
theorem test_ldb_past_ram : errorOf (stepOn 0xF033 (start [] 0xFFE)) = some (.ramOutOfRange 4096) := by decide
/-- V-M8: the last byte of RAM. -/
theorem test_ldxr_last_byte : view (fun t => (t.ram.read 0xFFF, t.I)) (stepOn 0xF055 (start [(0, 0xAB)] 0xFFF)) =
    some (0xAB, 0xFFF) := by decide
/-- V-M4: registers 0 to 2 inclusive, and not register 3. -/
theorem test_ldxr : view (fun t => [t.ram.read 0x300, t.ram.read 0x301, t.ram.read 0x302, t.ram.read 0x303])
    (stepOn 0xF255 (start [(0, 11), (1, 22), (2, 33), (3, 44)])) = some [11, 22, 33, 0] := by decide
/-- V-M4: the load, which leaves register 3. -/
theorem test_ldrx : view (fun t => [t.reg 0, t.reg 1, t.reg 2, t.reg 3])
    (stepOn 0xF265 (sprite [11, 22, 33, 44] (start [(3, 77)]))) = some [11, 22, 33, 77] := by decide
/-- V-F8. -/
theorem test_ldrx_past_ram : errorOf (stepOn 0xF265 (start [] 0xFFE)) = some (.ramOutOfRange 4096) := by decide

/-! ## Reset, program load, errors -/

/-- R211. -/
theorem test_reset : (State.reset.pc, State.reset.sp, State.reset.I, State.reset.dt, State.reset.st) = (0x200, 0, 0, 0, 0) := by
  decide
/-- R214: the image byte by byte from 0x200. -/
theorem test_load_program : [0x200, 0x201, 0x202].map ((loadProgram [0x60, 0xC8] State.reset).1.ram.read) = [0x60, 0xC8, 0] := by
  decide
/-- R181, R44: the largest address a step can name fits the 17 bits. -/
theorem test_error_info_widest : (errorInfo (some (.ramOutOfRange 65550))).toNat = 65550 := by decide
/-- R181: the position is packed `py*256 + px`. -/
theorem test_error_info : (errorCode (some (.framebufferOutOfRange 56 32)), errorInfo (some (.framebufferOutOfRange 56 32))) =
    (4, 0x2038) := by decide

/-! ## Witnesses: for each statement with hypotheses, a concrete state and operands that meet them -/

/-- `DecodeOfEncode`. -/
theorem witness_well_formed : wellFormed (.drw 10 11 15) = true ∧ wellFormed (.unk 0xFFFF) = true := by decide

/-- `StepRunsDecodedInstruction`: its clauses at the last fetchable address and the first beyond, and on a faulted machine. -/
theorem witness_step :
    ({ State.reset with faulted := true } : State).faulted = true ∧
    (State.reset.faulted = false ∧ 4095 ≤ (State.reset.setPc 4095).pc.toNat) ∧
    ((State.reset.setPc 4094).pc.toNat < 4095 ∧
      ∃ t, exec (decode ((State.reset.setPc 4094).ram.read 4094 ++ (State.reset.setPc 4094).ram.read 4095))
        { State.reset.setPc 4094 with pc := 4096, fbChanged := false, unknown := none } = .next t) ∧
    ∃ e, exec (decode ((State.reset.withFetchWord 16 0x00EE).ram.read 0x200 ++ (State.reset.withFetchWord 16 0x00EE).ram.read 0x201))
      { State.reset.withFetchWord 16 0x00EE with pc := 0x202, fbChanged := false, unknown := none } = .fault e :=
  ⟨rfl, by decide, ⟨by decide, _, rfl⟩, _, rfl⟩

/-- `RamAccessBounds`: the last address and the first beyond, for data and for the fetch. -/
theorem witness_ram_bounds : 4095 ≤ 4095 ∧ 4095 < 4096 ∧ (State.reset.setPc 4094).pc.toNat < 4095 ∧
    (State.reset.setPc 4095).pc.toNat = 4095 ∧ 4096 ≤ (State.reset.setPc 4096).pc.toNat := by decide

/-- `ErrorsByInstruction`: every error an instruction can raise is raised by one. -/
theorem witness_errors :
    (exec (.ldb 0) (start [] 0xFFE) = .fault (.ramOutOfRange 4096)) ∧
    (exec (.call 0x202) { State.reset with sp := 15 } = .fault (.stackOverflow 15)) ∧
    (exec .ret { State.reset with sp := 16 } = .fault (.stackOverflow 16)) ∧
    (exec .ret State.reset = .fault (.stackUnderflow 0)) ∧
    (exec (.drw 0 1 1) (start [(0, 57)]) = .fault (.framebufferOutOfRange 64 0)) ∧
    (exec (.skp 0) (start [(0, 16)]) = .fault (.keypadIndexOutOfRange 16)) :=
  ⟨rfl, rfl, rfl, rfl, rfl, rfl⟩

/-- `OnlyFaultedStepsRefused`: a refused step. -/
theorem witness_refused : step { State.reset with faulted := true } = .refused .machineFaulted := rfl

/-- `AddSumAndCarry`, `SubDifferenceAndNoBorrow`, `SubnDifferenceAndNoBorrow`, `ShiftRightByOne`, `ShiftLeftByOne`: a
destination other than 15, at both ends of the range. -/
theorem witness_flag_writer : (0 : Reg) ≠ 15 ∧ (14 : Reg) ≠ 15 := by decide

/-- `FlagRegisterAsDestination`: each of its five forms, on a register 15 of 200 and a second operand of 100. -/
theorem witness_flag_destination :
    let a := ((start [(15, 200), (1, 100)]).reg 15).toNat
    let b := ((start [(15, 200), (1, 100)]).reg 1).toNat
    (if 255 < a + b then 1 else 0) = 1 ∧ (a + b) % 256 = 44 ∧ (if b ≤ a then 1 else 0) = 1 ∧ (a + 256 - b) % 256 = 100 ∧
      (if a ≤ b then 1 else 0) = 0 ∧ (b + 256 - a) % 256 = 156 ∧ a % 2 = 0 ∧ a / 2 = 100 ∧ a / 128 = 1 ∧ a * 2 % 256 = 144 := by
  decide

/-- `CallPushes` at the last free slot, `RetPops` with one address and with all held, `StackErrors` at its two values. -/
theorem witness_stack : ({ State.reset with sp := 14 } : State).sp.toNat < 15 ∧
    (0 < ({ State.reset with sp := 1 } : State).sp.toNat ∧ ({ State.reset with sp := 15 } : State).sp.toNat ≤ 15) ∧
    ({ State.reset with sp := 15 } : State).sp = 15 ∧ State.reset.sp = 0 := by decide

/-- `UnknownWordStep`. -/
theorem witness_unknown : State.reset.faulted = false ∧ State.reset.pc.toNat < 4095 ∧
    State.reset.ram.read 0x200 ++ State.reset.ram.read 0x201 = (0x0000 : Word) ∧ isUnknownWord 0x0000 = true := by decide

/-- `NextPcTable`, `StackIsLastInFirstOut`, `RegisterFrame`, `RamFrame`, `SpecialStateFrame`, `FramebufferChangedFlag`: a
CALL, a RET, a CLS, a store and a skip that go on. -/
theorem witness_exec_next :
    ((State.reset.setPc 0x202).pc = 0x200 + 2 ∧ State.reset.sp.toNat ≤ 15 ∧ State.reset.fbChanged = false) ∧
    (∃ t, exec (.call 0x300) (State.reset.setPc 0x202) = .next t) ∧
    (∃ t, exec .ret { State.reset with sp := 15 } = .next t) ∧
    (∃ t, exec .cls State.reset = .next t) ∧
    (∃ t, exec (.ldxr 15) (start [] 0xFF0) = .next t ∧ storesTo (.ldxr 15) (start [] 0xFF0) 4095 ∧
      ¬ storesTo (.ldxr 15) (start [] 0xFF0) 4079) ∧
    (∃ t, exec (.add 1 2) State.reset = .next t ∧ writesReg (.add 1 2) 3 = false) ∧
    (¬ touchesStack .cls ∧ ¬ writesI .cls ∧ ¬ writesFb .ret) := by
  refine ⟨by decide, ⟨_, rfl⟩, ⟨_, rfl⟩, ⟨_, rfl⟩, ⟨_, rfl, ?_⟩, ⟨_, rfl, rfl⟩, ?_⟩
  · unfold storesTo; decide
  · simp [touchesStack, writesI, writesFb]

/-- `FramebufferChangedFlag`, its second clause: a CLS that changes cell 2047. -/
theorem witness_fb_changed : ∃ t, exec .cls { State.reset with fb := fbSet fbClear 2047 true } = .next t ∧
    fbGet t.fb 2047 ≠ fbGet ({ State.reset with fb := fbSet fbClear 2047 true } : State).fb 2047 :=
  ⟨_, rfl, by decide +kernel⟩

/-- `DrawXorsSprite`: the last position that fits, in both directions and in RAM, and the first that does not, each way. -/
theorem witness_draw_fits : drawFits 0 1 15 (start [(0, 56), (1, 17)] 4081) ∧ drawFits 0 1 0 (start [(0, 63)] 0xFFFF) ∧
    ¬ drawFits 0 1 1 (start [(0, 57)]) ∧ ¬ drawFits 0 1 15 (start [(1, 18)]) ∧ ¬ drawFits 0 1 15 (start [] 4082) := by
  unfold drawFits; decide

/-- `DrawPastEdgeRaises`: its two clauses, at the first column and at the first row that do not fit. -/
theorem witness_draw_past_edge :
    ((1 : Nibble) ≠ 0 ∧ 56 < ((start [(0, 57)] 4095).reg 0).toNat % 64 ∧ (start [(0, 57)] 4095).I.toNat ≤ 4095) ∧
    (((start [(0, 56), (1, 31)] 4094).reg 0).toNat % 64 ≤ 56 ∧
      32 < ((start [(0, 56), (1, 31)] 4094).reg 1).toNat % 32 + (2 : Nibble).toNat ∧
      (start [(0, 56), (1, 31)] 4094).I.toNat + (32 - ((start [(0, 56), (1, 31)] 4094).reg 1).toNat % 32) ≤ 4095) := by
  decide

/-- `DrawTwiceCancels`: a sprite drawn twice with a coordinate in register 15, which the first draw leaves at 0. -/
theorem witness_draw_twice_flag : view (fun t => (t.reg 15, (view (fun u => u.reg 15) (exec (.drw 15 1 1) t))))
    (exec (.drw 15 1 1) (sprite [0xFF] (start []))) = some (0, some 1) := by decide +kernel
/-- `DrawTwiceCancels`: a sprite drawn twice, on an all-off screen. -/
theorem witness_draw_twice : (0 : Reg) ≠ 15 ∧ (∀ px < 64, ∀ py < 32, (start []).pixel px py = false) ∧
    ∃ t u, exec (.drw 0 1 1) (sprite [0xFF] (start [])) = .next t ∧ exec (.drw 0 1 1) t = .next u := by
  obtain ⟨t, ht, h⟩ := next_of_view test_drw_twice
  obtain ⟨u, hu, _⟩ := next_of_view h
  exact ⟨by decide, fun px hx py hy => fbGet_fbClear _, t, u, ht, hu⟩

/-- `RamOutOfRangeCauses`: each clause at the first address where it holds. -/
theorem witness_ram_out_of_range :
    4095 ≤ (State.reset.setPc 4095).pc.toNat ∧ 4095 < (start [] 4094).I.toNat + 2 ∧
    4095 < (start [] 4081).I.toNat + (15 : Reg).val ∧ (4095 < (start [] 4096).I.toNat ∧ (1 : Nibble) ≠ 0) ∧
    ((start [] 4095).I.toNat ≤ 4095 ∧ 4096 < (start [] 4095).I.toNat + (2 : Nibble).toNat ∧
      ((start [] 4095).reg 0).toNat % 64 ≤ 56 ∧
      ((start [] 4095).reg 1).toNat % 32 + (4096 - (start [] 4095).I.toNat) ≤ 32) := by decide

/-- `KeySkips`: the last key index and the first beyond. -/
theorem witness_key_index : ((start [(0, 15)]).reg 0).toNat ≤ 15 ∧ 15 < ((start [(0, 16)]).reg 0).toNat := by decide

/-- `BlockForKey`: no key, and key 15 alone. -/
theorem witness_keys : (∀ k < 16, State.reset.keyDown k = false) ∧ (setKey 15 true State.reset).keyDown 15 = true ∧
    (∀ j < 15, (setKey 15 true State.reset).keyDown j = false) := by decide

/-- `StepTicksTimers` and `StepKeepsInvariant`: steps that go on, from states with the invariant. -/
theorem witness_step_next : Inv State.reset ∧ (∃ t, step State.reset = .next t) ∧
    (∃ t, step (State.reset.withFetchWord 16 0xF015) = .next t) ∧ (∃ t, step (State.reset.withFetchWord 16 0xF018) = .next t) := by
  refine ⟨⟨Memory.wf_reset, by decide, by decide, fun k => ?_, by decide⟩, ⟨_, rfl⟩, ⟨_, rfl⟩, ⟨_, rfl⟩⟩
  unfold State.slot State.reset
  by_cases h : k < 16
  · simp [h]
  · simp only; rw [Vector.getElem?_eq_none (by omega)]; decide

/-- `DecimalDigitsStored`, `RegistersDumped`, `RegistersLoaded`: the last place that fits, the first that does not. -/
theorem witness_store : State.reset.ram.wf ∧ (start [] 4093).ram.wf ∧ (start [] 4093).I.toNat ≤ 4093 ∧
    4093 < (start [] 4094).I.toNat ∧ (start [] 4080).I.toNat + (15 : Reg).val ≤ 4095 := by decide

/-- `DumpThenLoadRestores`: a dump that completes. -/
theorem witness_dump : (start [] 0x200).ram.wf ∧
    ∃ t u : State, exec (.ldxr 1) (start [] 0x200) = .next t ∧ u.ram = t.ram ∧ u.I = t.I :=
  ⟨by decide, _, _, rfl, rfl, rfl⟩

/-- The instruction word the fetch reads next, and the two bytes of RAM at a place. -/
def nextWord (t : State) : Option Word :=
  match fetchWord t with
  | .ok w => some w
  | .error _ => none

/-- `StoreSeenByFetch`, by the rule's own words: LDXR V1 at 0x200 with `I` = 0x202 makes 0x60C8 of x[0] = 0x60, x[1] = 0xC8. -/
theorem test_store_seen_by_fetch : view nextWord (stepOn 0xF155 (start [(0, 0x60), (1, 0xC8)] 0x202)) = some (some 0x60C8) := by
  decide
/-- `StoreSeenByFetch`: a store that reaches only the first half, and an LDB that reaches only the second. -/
theorem test_store_overlaps_fetch :
    view nextWord (stepOn 0xF155 (start [(0, 0xF1), (1, 0x12)] 0x201)) = some (some 0x1200) ∧
    view nextWord (stepOn 0xF033 (start [(0, 255)] 0x203)) = some (some 0x0002) := by decide
/-- `StoreSeenByFetch`: a step on an instruction that stores nothing, with canonical RAM. -/
theorem witness_store_seen : ((start [(0, 0x60)] 0x202).withFetchWord 16 0xF155).ram.wf ∧ (start []).ram.wf ∧
    view nextWord (stepOn 0x1218 (start [])) = some (some 0x0000) := by decide

/-- `HostCallsKeepRamCanonical`, `OnlySetKeyWritesKeypad`: a host operation that answers, other than `setKey`. -/
theorem witness_host_call : State.reset.ram.wf ∧ State.reset.sp.toNat ≤ 15 ∧
    (∃ t e, hostCall (.load [0x12, 0x00]) State.reset = .ok (t, e)) ∧ (∃ t e, hostCall .step State.reset = .ok (t, e)) ∧
    ∀ k b, HostOp.reset ≠ .setKey k b :=
  ⟨Memory.wf_reset, by decide, ⟨_, _, rfl⟩, ⟨_, _, rfl⟩, fun _ _ h => by cases h⟩

/-- `ResetOperation`, `ResetRamAndKeypad`: a canonical memory with a stored byte, and an address outside the font. -/
theorem witness_reset : (State.reset.withFetchWord 16 0x1200).ram.wf ∧ (0x200 < 4096) ∧ Config.fontBase.val + 80 ≤ 0x200 :=
  ⟨by decide, by decide, by have := Config.fontBase.isLt; omega⟩

/-- `BootSequence`, `ProgramLoaded`, `ProgramTooLargeReported`: programs of no bytes, of the most and of one too many. -/
theorem witness_program : ([] : List Byte).length ≤ 3584 ∧ (List.replicate 3584 (0 : Byte)).length = 3584 ∧
    3584 < (List.replicate 3585 (0 : Byte)).length ∧ ([0x12, 0x00] : List Byte).length ≤ 3584 := by
  simp only [List.length_replicate]; decide

/-- `FaultResidueBounds`: a DRW that raises over an all-off screen leaves 0 in x[15] if it was 0 (R141, R146, R190), for every
value of the free choices. -/
theorem test_drw_fault_without_collision (n : Nat) : residueFlag n 0 (pixelsTurnedOff fbClear
    (drawnPixels (sprite [0xFF] (start [])).ram 0x300 57 0 1 fbClear)) = 0 := by
  have h : pixelsTurnedOff fbClear (drawnPixels (sprite [0xFF] (start [])).ram 0x300 57 0 1 fbClear) = false := by
    rw [Bool.eq_false_iff, Ne, pixelsTurnedOff_iff]
    rintro ⟨px, _, py, _, h, _⟩
    rw [fbGet_fbClear] at h
    cases h
  rw [h]
  rcases residueFlag_cases n 0 false with e | e | ⟨_, e⟩
  · exact e
  · exact e
  · cases e

/-- `FaultResidueBounds`: a step of each instruction whose residue it bounds, DRW, LDB, LDXR and LDRX, that raises. -/
theorem witness_fault_residue_forms :
    errorOf (stepOn 0xD011 (start [(0, 57)])) = some (.framebufferOutOfRange 64 0) ∧
    errorOf (stepOn 0xF033 (start [] 0xFFE)) = some (.ramOutOfRange 4096) ∧
    errorOf (stepOn 0xF155 (start [] 0xFFF)) = some (.ramOutOfRange 4096) ∧
    errorOf (stepOn 0xF165 (start [] 0xFFF)) = some (.ramOutOfRange 4096) ∧
    ((start [(0, 57)]).withFetchWord 16 0xD011).ram.wf := by decide +kernel

/-- `FaultResidueBounds`: a step that raises in its fetch, and one that raises in its execution. -/
theorem witness_fault_residue :
    (∃ t r, hostStep (State.reset.setPc 4095) = .ok (t, r) ∧ r.error = some (.ramOutOfRange 4096)) ∧
    (∃ t r, hostStep (State.reset.withFetchWord 16 0x00EE) = .ok (t, r) ∧ r.error = some (.stackUnderflow 0)) ∧
    (State.reset.withFetchWord 16 0x00EE).ram.wf :=
  ⟨⟨_, _, rfl, rfl⟩, ⟨_, _, rfl, rfl⟩, by decide⟩

/-- `JumpToSelfParks`: `1200` at 0x200. -/
theorem witness_park : (State.reset.withFetchWord 16 0x1200).faulted = false ∧
    (State.reset.withFetchWord 16 0x1200).pc.toNat = (0x200 : Addr12).toNat ∧
    (State.reset.withFetchWord 16 0x1200).ram.read 0x200 ++ (State.reset.withFetchWord 16 0x1200).ram.read 0x201 =
      wordA 0x1 0x200 := by decide

end Sys2Proof.Tests
end

section
/-! PROOF. Where every instruction leaves `pc` (spec/10_state.md R24): for each instruction that can raise, one lemma that
says what a completed execution is, and then the table. -/

namespace Sys2Proof.Machine

variable {s t : State}

/-! ### What a completed execution is, of the instructions that can raise -/

/-- An execution guarded by a check completes exactly when the check passes and the rest completes (R12). -/
theorem ite_raise_eq_next_iff {c : Prop} [Decidable c] {e : Fault} {r : Result} :
    (if c then raise e else r) = .next t ↔ ¬ c ∧ r = .next t := by
  by_cases hc : c <;> simp [hc, raise]

/-- A completed CALL found a free slot (R122, R183). -/
theorem execCall_next {NNN : Addr12} (h : execCall NNN s = .next t) :
    s.sp.toNat < 15 ∧ t = s.pushPc.setPc (zext16 NNN) := by
  obtain ⟨hfree, ht⟩ := ite_raise_eq_next_iff.mp h
  exact ⟨Nat.lt_of_not_le hfree, (Host.Outcome.next.inj ht).symm⟩

/-- A completed RET found a return address in one of the slots 1 to 15 (R123, R184). -/
theorem execRet_next (h : execRet s = .next t) : 0 < s.sp.toNat ∧ s.sp.toNat ≤ 15 ∧ t = s.popPc := by
  obtain ⟨hheld, h⟩ := ite_raise_eq_next_iff.mp h
  obtain ⟨hslot, ht⟩ := ite_raise_eq_next_iff.mp h
  exact ⟨Nat.pos_of_ne_zero hheld, Nat.le_of_not_lt hslot, (Host.Outcome.next.inj ht).symm⟩

/-- A completed DRW drew every row (R141). -/
theorem execDrw_next {X Y : Reg} {N : Nibble} (h : execDrw X Y N s = .next t) :
    ∃ d, blitRows s.ram (s.effAddr 0) (s.drawX X) (s.drawY Y) (List.range N.toNat) { fb := s.fb, hit := false } = .ok d ∧
      t = (s.setReg 15 (flagByte d.hit)).showFb d.fb := by
  unfold execDrw at h
  split at h
  · cases h
  · next d hd => exact ⟨d, hd, (Host.Outcome.next.inj h).symm⟩

/-- A completed LDB stored all three digits (R168). -/
theorem execLdb_next {X : Reg} (h : execLdb X s = .next t) :
    ∃ m, writeBytes s.ram (s.effAddr 0) (bcdDigits (s.reg X)) = .ok m ∧ t = s.setRam m := by
  unfold execLdb at h
  split at h
  · cases h
  · next m hm => exact ⟨m, hm, (Host.Outcome.next.inj h).symm⟩

/-- A completed LDXR stored `x[0]` to `x[X]` (R169). -/
theorem execLdxr_next {X : Reg} (h : execLdxr X s = .next t) :
    ∃ m, writeBytes s.ram (s.effAddr 0) (s.regsThrough X) = .ok m ∧ t = s.setRam m := by
  unfold execLdxr at h
  split at h
  · cases h
  · next m hm => exact ⟨m, hm, (Host.Outcome.next.inj h).symm⟩

/-- A completed LDRX read a byte for each of `x[0]` to `x[X]` (R170). -/
theorem execLdrx_next {X : Reg} (h : execLdrx X s = .next t) :
    ∃ bs, readBytes s.ram (s.effAddr 0) (X.val + 1) = .ok bs ∧ t = s.setRegs bs := by
  unfold execLdrx at h
  split at h
  · cases h
  · next bs hbs => exact ⟨bs, hbs, (Host.Outcome.next.inj h).symm⟩

/-- A completed SKP tested a key that exists (R150, R186). -/
theorem execSkp_next {X : Reg} (h : execSkp X s = .next t) :
    (s.reg X).toNat ≤ 15 ∧ t = s.skipIf (s.keyDown (s.reg X).toNat) := by
  obtain ⟨hkey, ht⟩ := ite_raise_eq_next_iff.mp h
  exact ⟨Nat.le_of_not_lt hkey, (Host.Outcome.next.inj ht).symm⟩

/-- A completed SKNP tested a key that exists (R151, R186). -/
theorem execSknp_next {X : Reg} (h : execSknp X s = .next t) :
    (s.reg X).toNat ≤ 15 ∧ t = s.skipIf (!s.keyDown (s.reg X).toNat) := by
  obtain ⟨hkey, ht⟩ := ite_raise_eq_next_iff.mp h
  exact ⟨Nat.le_of_not_lt hkey, (Host.Outcome.next.inj ht).symm⟩

/-! ### The key wait -/

/-- There is no lowest pressed key exactly when no key is down (R152). -/
theorem lowestKey_eq_none_iff : s.lowestKey = none ↔ ∀ k < 16, s.keyDown k = false := by
  simp [State.lowestKey]

/-- LDK rewinds `pc` exactly when no key is down (R152). -/
theorem pc_execLdk {X : Reg} (h : execLdk X s = .next t) :
    t.pc = if ∀ k < 16, s.keyDown k = false then s.pc - 2 else s.pc := by
  simp only [← lowestKey_eq_none_iff]
  unfold execLdk at h
  split at h <;> next hk => obtain rfl := Host.Outcome.next.inj h; simp [hk]

/-! ### The table -/

/-- A skip of an instruction fetched from `a` leaves `a + 4` or `a + 2` (R24, R130). -/
theorem pc_skipIf_of_fetchedAt {a : Word} (hpc : s.pc = a + 2) (c : Bool) :
    (s.skipIf c).pc = if c then a + 4 else a + 2 := by
  rw [State.pc_skipIf, hpc, BitVec.add_assoc]
  rfl

/-- Settles O25, by cases on the instruction: what a completed execution of it is, read at `pc`. -/
theorem nextPcTable : Obligations.NextPcTable := by
  intro i s t a hpc h
  cases i with
  | jp NNN | jpa NNN => obtain rfl := Host.Outcome.next.inj h; rfl
  | call NNN => obtain ⟨-, rfl⟩ := execCall_next h; rfl
  | ret => obtain ⟨-, -, rfl⟩ := execRet_next h; rfl
  | sei X KK | snei X KK | se X Y | sne X Y =>
    obtain rfl := Host.Outcome.next.inj h
    rw [pc_skipIf_of_fetchedAt hpc]
    simp [pcAfter, skips]
  | skp X => obtain ⟨-, rfl⟩ := execSkp_next h; exact pc_skipIf_of_fetchedAt hpc _
  | sknp X => obtain ⟨-, rfl⟩ := execSknp_next h; exact pc_skipIf_of_fetchedAt hpc _
  | ldk X => simpa [hpc, pcAfter] using pc_execLdk h
  | drw X Y N => obtain ⟨d, -, rfl⟩ := execDrw_next h; exact hpc
  | ldb X => obtain ⟨m, -, rfl⟩ := execLdb_next h; exact hpc
  | ldxr X => obtain ⟨m, -, rfl⟩ := execLdxr_next h; exact hpc
  | ldrx X => obtain ⟨bs, -, rfl⟩ := execLdrx_next h; exact hpc
  | add X Y | sub X Y | subn X Y | shr X Y | shl X Y =>
    obtain rfl := Host.Outcome.next.inj h
    exact (State.pc_setResultAndFlag ..).trans hpc
  | cls | ldi X KK | addi X KK | ld X Y | or X Y | and X Y | xor X Y | ldix NNN | rnd X KK | rdt X | sdt X | sst X
  | addix X | ldf X | unk w => obtain rfl := Host.Outcome.next.inj h; exact hpc

end Sys2Proof.Machine
end

section
/-! PROOF. A RAM access succeeds exactly at 0 to 4095 (spec/20_memory.md R51): one lemma per single-byte access on each
side of the bound; the fetch has its own two, `fetchWord_ok` and `fetchWord_error`. -/

namespace Sys2Proof.Machine

/-- A read in RAM answers the byte held there (R51). -/
theorem readByte_ok (m : Memory) {a : Nat} (h : a ≤ 4095) : readByte m a = .ok (m.read a) :=
  if_pos (Nat.lt_succ_of_le h)

/-- A read beyond RAM raises with its own address (R51). -/
theorem readByte_error (m : Memory) {a : Nat} (h : 4095 < a) : readByte m a = .error (.ramOutOfRange a) :=
  if_neg (Nat.not_lt_of_le h)

/-- A write in RAM stores the byte (R51). -/
theorem writeByte_ok (m : Memory) {a : Nat} (v : Byte) (h : a ≤ 4095) : writeByte m a v = .ok (m.write a v) :=
  if_pos (Nat.lt_succ_of_le h)

/-- A write beyond RAM raises with its own address (R51). -/
theorem writeByte_error (m : Memory) {a : Nat} (v : Byte) (h : 4095 < a) :
    writeByte m a v = .error (.ramOutOfRange a) :=
  if_neg (Nat.not_lt_of_le h)

/-- Settles O6, by the lemmas of the two single-byte accesses and of the fetch on each side of the bound; a fetch at 4095
raises at its second byte, 4096, and one beyond at `pc` itself, which is `max pc 4096` in both cases. -/
theorem ramAccessBounds : Obligations.RamAccessBounds := by
  intro s a v
  refine ⟨fun h => ⟨readByte_ok _ h, _, writeByte_ok _ v h⟩, fun h => ⟨readByte_error _ h, writeByte_error _ v h⟩,
    fetchWord_ok, fun hpc => ?last, fun hpc => ?beyond⟩
  case last => rw [fetchWord_error hpc.ge, hpc]; rfl
  case beyond => rw [fetchWord_error (by omega), max_eq_left hpc]

end Sys2Proof.Machine
end

section
/-! PROOF. The register load and the five flag-writing instructions with `X` other than 15 (spec/40_alu.md R102, R106 to
R110): the decoder on the words of family 8, the shared effect of the two writes, the arithmetic of each result and flag,
and from these the obligations. -/

namespace Sys2Proof.Machine

variable {s : State}

/-! ### Decoding -/

/-- A word of high nibble 8 is decoded by its low nibble (R80). -/
theorem decode_word4_eight (a b c : Nibble) : decode (word4 0x8 a b c) = decodeEight (word4 0x8 a b c) := by
  simp [decode]

/-! ### The writes -/

theorem sameButRegs_setReg (r : Reg) (v : Byte) : SameButRegs s (s.setReg r v) := rfl

theorem sameButRegs_setResultAndFlag (X : Reg) (v : Byte) (b : Bool) : SameButRegs s (s.setResultAndFlag X v b) := by
  unfold State.setResultAndFlag
  split <;> rfl

/-- An instruction that makes the two writes, with a destination other than the flags register: each write lands in its own
register and nothing else changes (R113). -/
theorem exec_resultAndFlag {i : Instr} {X : Reg} {v : Byte} {b : Bool}
    (hexec : exec i s = .next (s.setResultAndFlag X v b)) (hX : X ≠ 15) :
    ∃ t, exec i s = .next t ∧ t.reg X = v ∧ t.reg 15 = flagByte b ∧
      (∀ q, q ≠ X → q ≠ 15 → t.reg q = s.reg q) ∧ SameButRegs s t := by
  refine ⟨_, hexec, ?result, ?flag, fun q hqX hq15 => ?others, sameButRegs_setResultAndFlag X v b⟩
  case result => simp [hX]
  case flag => simp [hX]
  case others => simp [hqX, hq15]

/-! ### Results and flags as numbers -/

theorem flagByte_decide (p : Prop) [Decidable p] : flagByte (decide p) = if p then 1 else 0 := by
  simp [flagByte]

theorem toNat_flagByte (b : Bool) : (flagByte b).toNat = b.toNat := by
  cases b <;> rfl

/-- Byte subtraction is the integer difference modulo 256 (R107, R109). -/
theorem natCast_toNat_sub (a b : Byte) : ((a - b).toNat : Int) = (a.toNat - b.toNat : Int) % 256 := by
  rw [BitVec.toNat_sub]
  omega

/-- A logical right shift by one halves (R108). -/
theorem toNat_shiftRight_one (a : Byte) : (a >>> 1).toNat = a.toNat / 2 :=
  (BitVec.toNat_ushiftRight a 1).trans (Nat.shiftRight_eq_div_pow a.toNat 1)

/-- A left shift by one doubles modulo 256 (R110). -/
theorem toNat_shiftLeft_one (a : Byte) : (a <<< 1).toNat = a.toNat * 2 % 256 := by
  rw [BitVec.toNat_shiftLeft, Nat.shiftLeft_eq]

/-- The bit a right shift moves out is the remainder of the halving (R108). -/
theorem toNat_bitOutRight (a : Byte) : (bitOutRight a).toNat = a.toNat % 2 := by
  have hbit : (bitOutRight a).toNat = a.toNat / 2 ^ 0 % 2 := Nat.toNat_testBit a.toNat 0
  rwa [Nat.pow_zero, Nat.div_one] at hbit

/-- The bit a left shift moves out is bit 7, which no higher bit covers (R110). -/
theorem toNat_bitOutLeft (a : Byte) : (bitOutLeft a).toNat = a.toNat / 128 := by
  have hbit : (bitOutLeft a).toNat = a.toNat / 2 ^ 7 % 2 := Nat.toNat_testBit a.toNat 7
  omega

/-! ### The obligations -/

/-- Settles O10: LD is one register write. -/
theorem registerLoad : Obligations.RegisterLoad := by
  intro s X Y
  refine ⟨(decode_word4_eight ..).trans (by simp [decodeEight]), _, rfl, ?copied, fun q hq => ?others,
    sameButRegs_setReg X _⟩
  case copied => simp
  case others => simp [hq]

/-- Settles O12: byte addition is the sum modulo 256, and `carry` compares the unreduced sum. -/
theorem addSumAndCarry : Obligations.AddSumAndCarry := by
  refine fun s X Y => ⟨(decode_word4_eight ..).trans (by simp [decodeEight]), fun hX => ?_⟩
  obtain ⟨t, ht, hresult, hflag, hframe⟩ := exec_resultAndFlag (i := .add X Y) (s := s) rfl hX
  exact ⟨t, ht, hresult ▸ BitVec.toNat_add .., hflag.trans (flagByte_decide _), hframe⟩

/-- Settles O13, by `natCast_toNat_sub` on `x[X] - x[Y]`. -/
theorem subDifferenceAndNoBorrow : Obligations.SubDifferenceAndNoBorrow := by
  refine fun s X Y => ⟨(decode_word4_eight ..).trans (by simp [decodeEight]), fun hX => ?_⟩
  obtain ⟨t, ht, hresult, hflag, hframe⟩ := exec_resultAndFlag (i := .sub X Y) (s := s) rfl hX
  exact ⟨t, ht, hresult ▸ natCast_toNat_sub .., hflag.trans (flagByte_decide _), hframe⟩

/-- Settles O14, by `natCast_toNat_sub` on `x[Y] - x[X]`. -/
theorem subnDifferenceAndNoBorrow : Obligations.SubnDifferenceAndNoBorrow := by
  refine fun s X Y => ⟨(decode_word4_eight ..).trans (by simp [decodeEight]), fun hX => ?_⟩
  obtain ⟨t, ht, hresult, hflag, hframe⟩ := exec_resultAndFlag (i := .subn X Y) (s := s) rfl hX
  exact ⟨t, ht, hresult ▸ natCast_toNat_sub .., hflag.trans (flagByte_decide _), hframe⟩

/-- Settles O15: quotient and remainder of the old value by 2. -/
theorem shiftRightByOne : Obligations.ShiftRightByOne := by
  refine fun s X Y => ⟨(decode_word4_eight ..).trans (by simp [decodeEight]), fun hX => ?_⟩
  obtain ⟨t, ht, hresult, hflag, hframe⟩ := exec_resultAndFlag (i := .shr X Y) (s := s) rfl hX
  exact ⟨t, ht, hresult ▸ toNat_shiftRight_one _, by rw [hflag, toNat_flagByte, toNat_bitOutRight], hframe⟩

/-- Settles O16: the doubled value modulo 256, and the quotient of the old one by 128. -/
theorem shiftLeftByOne : Obligations.ShiftLeftByOne := by
  refine fun s X Y => ⟨(decode_word4_eight ..).trans (by simp [decodeEight]), fun hX => ?_⟩
  obtain ⟨t, ht, hresult, hflag, hframe⟩ := exec_resultAndFlag (i := .shl X Y) (s := s) rfl hX
  exact ⟨t, ht, hresult ▸ toNat_shiftLeft_one _, by rw [hflag, toNat_flagByte, toNat_bitOutLeft], hframe⟩

end Sys2Proof.Machine
end

section
/-! PROOF. The step as its phases (spec/41_control.md R120), and the skips and the unknown/data word (R125 to R129): what
`step` answers from what the fetch and the execution answer, the tick in the words of R156, the decoder on the unknown space
of R86, and from these the obligations. -/

namespace Sys2Proof.Machine

variable {s : State}

/-! ### The step from its phases -/

/-- A step on a machine marked faulted is refused (R192). -/
theorem step_of_faulted (hf : s.faulted = true) : step s = .refused .machineFaulted :=
  if_pos hf

/-- An error of the fetch is the error of the step. -/
theorem step_of_fetchWord_error {e : Fault} (hf : s.faulted = false) (hw : fetchWord s = .error e) :
    step s = .fault e := by
  simp [step, hf, hw, raise]

/-- A step whose instruction completes ends with the tick. -/
theorem step_of_exec_next {w : Word} {t : State} (hf : s.faulted = false) (hw : fetchWord s = .ok w)
    (hexec : exec (decode w) s.beginStep = .next t) : step s = .next t.tick := by
  simp [step, hf, hw, hexec]

/-- An error of the instruction is the error of the step. -/
theorem step_of_exec_fault {w : Word} {e : Fault} (hf : s.faulted = false) (hw : fetchWord s = .ok w)
    (hexec : exec (decode w) s.beginStep = .fault e) : step s = .fault e := by
  simp [step, hf, hw, hexec]

/-- The tick of one timer is down by 1 and stops at 0 (R156). -/
theorem tickTimer_eq_ticked (v : Byte) : tickTimer v = ticked v := by
  unfold tickTimer ticked
  split
  · next hpos =>
    rw [if_neg hpos.ne']
    bv_omega
  · next hzero =>
    have hv : v.toNat = 0 := Nat.eq_zero_of_not_pos hzero
    rw [if_pos hv]
    exact BitVec.eq_of_toNat_eq hv

/-- The tick writes the two timers and nothing else (R156). -/
theorem tick_eq (t : State) : t.tick = { t with dt := ticked t.dt, st := ticked t.st } := by
  simp only [State.tick, tickTimer_eq_ticked]

/-! ### The skips -/

/-- A skip on a Boolean test of `p` advances `pc` by a further 2 exactly when `p` holds (R130). -/
theorem skipIf_eq_ite {p : Prop} [Decidable p] {c : Bool} (hc : c = true ↔ p) :
    s.skipIf c = if p then { s with pc := s.pc + 2 } else s :=
  if_congr hc rfl rfl

/-! ### The unknown space -/

/-- The tests of R86 in the decoder's fields. -/
theorem isUnknownWord_eq (w : Word) : isUnknownWord w =
    if opOf w = 0x0 then w != 0x00E0 && w != 0x00EE
    else if opOf w = 0x5 || opOf w = 0x9 then nOf w != 0
    else if opOf w = 0x8 then nOf w ∈ [0x8, 0x9, 0xA, 0xB, 0xC, 0xD, 0xF]
    else if opOf w = 0xE then kkOf w ∉ [0x9E, 0xA1]
    else if opOf w = 0xF then kkOf w ∉ [0x07, 0x0A, 0x15, 0x18, 0x1E, 0x29, 0x33, 0x55, 0x65]
    else false := rfl

/-- High nibble 0 has two instructions (R76). -/
theorem decodeZero_eq_unk {w : Word} (hcls : w ≠ 0x00E0) (hret : w ≠ 0x00EE) : decodeZero w = .unk w :=
  (if_neg hcls).trans (if_neg hret)

/-- A low nibble that family 8 leaves out selects no sub-operation (R80, R86). -/
theorem decodeEight_eq_unk {w : Word} (hn : nOf w ∈ ([0x8, 0x9, 0xA, 0xB, 0xC, 0xD, 0xF] : List Nibble)) :
    decodeEight w = .unk w := by
  unfold decodeEight
  generalize nOf w = n at hn
  fin_cases hn <;> rfl

/-- A low byte that is not family E's selects nothing (R82). -/
theorem decodeE_eq_unk {w : Word} (hkk : kkOf w ∉ ([0x9E, 0xA1] : List Byte)) : decodeE w = .unk w := by
  simp only [List.mem_cons, List.not_mem_nil, or_false, not_or] at hkk
  simp only [decodeE, hkk, if_false]

/-- A low byte that is not family F's selects nothing (R83). -/
theorem decodeF_eq_unk {w : Word}
    (hkk : kkOf w ∉ ([0x07, 0x0A, 0x15, 0x18, 0x1E, 0x29, 0x33, 0x55, 0x65] : List Byte)) : decodeF w = .unk w := by
  simp only [List.mem_cons, List.not_mem_nil, or_false, not_or] at hkk
  simp only [decodeF, hkk, if_false]

/-- A word that R86 lists decodes to unknown/data: by the families that have such words. -/
theorem decode_of_isUnknownWord {w : Word} (h : isUnknownWord w = true) : decode w = .unk w := by
  rw [isUnknownWord_eq] at h
  split at h
  next hop =>
    obtain ⟨hcls, hret⟩ : w ≠ 0x00E0 ∧ w ≠ 0x00EE := by simpa using h
    simp [decode, hop, decodeZero_eq_unk hcls hret]
  split at h
  next hop =>
    have hn : nOf w ≠ 0x0 := bne_iff_ne.mp h
    obtain hop | hop : opOf w = 0x5 ∨ opOf w = 0x9 := by simpa using hop
    · simpa [decode, hop] using hn
    · simpa [decode, hop] using hn
  split at h
  next hop => simp [decode, hop, decodeEight_eq_unk (of_decide_eq_true h)]
  split at h
  next hop => simp [decode, hop, decodeE_eq_unk (of_decide_eq_true h)]
  split at h
  next hop => simp [decode, hop, decodeF_eq_unk (of_decide_eq_true h)]
  next => cases h

/-! ### The obligations -/

/-- Settles O24: a listed word decodes to itself as unknown/data, so the step is the advance, the output and the tick. -/
theorem unknownWordStep : Obligations.UnknownWordStep := by
  refine fun s w => ⟨rfl, fun hf hpc hword hunk => ?step⟩
  have hexec : exec (decode w) s.beginStep = .next (s.beginStep.setUnknown w) := by
    rw [decode_of_isUnknownWord hunk]; rfl
  calc step s
      = .next (s.beginStep.setUnknown w).tick := step_of_exec_next hf (hword ▸ fetchWord_ok hpc) hexec
    _ = _ := by rw [tick_eq]; rfl

/-- Settles O5, by the phase that decides the outcome: the mark, the fetch, the execution. -/
theorem stepRunsDecodedInstruction : Obligations.StepRunsDecodedInstruction := by
  refine fun s => ⟨step_of_faulted, fun hf hpc => step_of_fetchWord_error hf (fetchWord_error hpc), ?executed⟩
  rintro hf hpc w rfl
  have hword := fetchWord_ok hpc
  exact ⟨fun t ht => tick_eq t ▸ step_of_exec_next hf hword ht, fun e he => step_of_exec_fault hf hword he⟩

/-- Settles O23: each of the four is one skip on its Boolean test. -/
theorem registerSkips : Obligations.RegisterSkips := by
  intro s X Y KK
  refine ⟨?sei, ?snei, ?se, ?sne, congrArg _ (skipIf_eq_ite beq_iff_eq), congrArg _ (skipIf_eq_ite bne_iff_ne),
    congrArg _ (skipIf_eq_ite beq_iff_eq), congrArg _ (skipIf_eq_ite bne_iff_ne)⟩
  case sei | snei | se | sne => simp [decode]

end Sys2Proof.Machine
end

section
/-! PROOF. The key wait (spec/43_keypad_timers.md R152): the decoder on the words of family F, which key is the lowest one
down, what LDK does in each case, and from these the obligation. -/

namespace Sys2Proof.Machine

variable {s : State}

/-- A word of high nibble 0xF is decoded by its low byte (R83). -/
theorem decode_wordI_fifteen (a : Nibble) (kk : Byte) : decode (wordI 0xF a kk) = decodeF (wordI 0xF a kk) := by
  simp [decode]

/-- The lowest pressed key is a key that is down with no lower one down (R152). -/
theorem lowestKey_eq_some_iff {k : Nat} :
    s.lowestKey = some k ↔ s.keyDown k = true ∧ k < 16 ∧ ∀ j < k, s.keyDown j = false := by
  simp [State.lowestKey, List.find?_range_eq_some]

/-- LDK with no key down goes back to itself (R152). -/
theorem execLdk_of_lowestKey_eq_none (X : Reg) (h : s.lowestKey = none) :
    execLdk X s = .next (s.setPc (s.pc - 2)) := by
  simp [execLdk, h]

/-- LDK with a key down is one register write of the lowest one (R152). -/
theorem execLdk_of_lowestKey_eq_some (X : Reg) {k : Nat} (h : s.lowestKey = some k) :
    execLdk X s = .next (s.setReg X (BitVec.ofNat 8 k)) := by
  simp [execLdk, h]

/-- Settles O35, by whether there is a lowest pressed key; its index is below 16, so the register holds it whole. -/
theorem blockForKey : Obligations.BlockForKey := by
  refine fun s X => ⟨(decode_wordI_fifteen ..).trans (by simp [decodeF]), fun hup => ?wait, fun k hk hdown hlower => ?key⟩
  case wait => exact execLdk_of_lowestKey_eq_none X (lowestKey_eq_none_iff.mpr hup)
  case key =>
    have hlowest : s.lowestKey = some k := lowestKey_eq_some_iff.mpr ⟨hdown, hk, hlower⟩
    refine ⟨_, execLdk_of_lowestKey_eq_some X hlowest, ?index, fun q hq => ?others, sameButRegs_setReg X _⟩
    case index =>
      rw [State.reg_setReg, if_pos rfl]
      exact Nat.mod_eq_of_lt (by omega)
    case others => simp [hq]

end Sys2Proof.Machine
end

section
/-! PROOF. The decimal digits of a register in RAM (spec/44_index_memory.md R168): what LDB does on each side of
the last place that holds all three digits, and from these the obligation. -/

namespace Sys2Proof.Machine

variable {s : State} {X : Reg}

/-- LDB with room for the three digits is one change of RAM, which holds the digits from `I` up and is otherwise as before
(R168). -/
theorem execLdb_of_le (hm : s.ram.wf) (hI : s.I.toNat ≤ 4093) :
    ∃ m, execLdb X s = .next (s.setRam m) ∧
      (∀ k < 3, m.read (s.I.toNat + k) = ((bcdDigits (s.reg X))[k]?).getD 0) ∧
      ∀ a, a < s.I.toNat ∨ s.I.toNat + 2 < a → m.read a = s.ram.read a := by
  have hlen : (bcdDigits (s.reg X)).length = 3 := rfl
  obtain ⟨m, hwrite, -, hread⟩ := writeBytes_ok (bcdDigits (s.reg X)) s.ram (s.effAddr 0) hm
    (by rw [hlen, State.effAddr]; omega)
  refine ⟨m, by simp [execLdb, hwrite], fun k hk => ?digit, fun a ha => ?other⟩
  case digit => rw [hread, hlen, State.effAddr, if_pos (by omega), Nat.add_zero, Nat.add_sub_cancel_left]
  case other => rw [hread, hlen, State.effAddr, if_neg (by omega)]

/-- LDB without that room raises at the first address beyond RAM (R182). -/
theorem execLdb_of_lt (hI : 4093 < s.I.toNat) : execLdb X s = .fault (.ramOutOfRange (max s.I.toNat 4096)) := by
  have hwrite : writeBytes s.ram (s.effAddr 0) (bcdDigits (s.reg X)) = .error (.ramOutOfRange (max s.I.toNat 4096)) :=
    writeBytes_error _ _ _ (show 4096 < s.I.toNat + 0 + 3 by omega) (List.cons_ne_nil _ _)
  simp [execLdb, hwrite, raise]

/-- Settles O40, by whether the three digits fit in RAM; each digit fits a byte, so it is stored whole. -/
theorem decimalDigitsStored : Obligations.DecimalDigitsStored := by
  refine fun s X hm => ⟨(decode_wordI_fifteen ..).trans (by simp [decodeF]), fun hI => ?stored, execLdb_of_lt⟩
  obtain ⟨m, hexec, hdigits, hframe⟩ := execLdb_of_le (X := X) hm hI
  have hbyte : (s.reg X).toNat < 256 := (s.reg X).isLt
  refine ⟨_, hexec, ?hundreds, ?tens, ?ones, hframe, rfl⟩
  case hundreds => exact (congrArg _ (hdigits 0 (by decide))).trans (Nat.mod_eq_of_lt (by omega))
  case tens => exact (congrArg _ (hdigits 1 (by decide))).trans (Nat.mod_eq_of_lt (by omega))
  case ones => exact (congrArg _ (hdigits 2 (by decide))).trans (Nat.mod_eq_of_lt (by omega))

end Sys2Proof.Machine
end

section
/-! PROOF. The accesses beyond RAM (spec/60_exceptions.md R182): the rows of a DRW up to the first one beyond RAM, what the
multi-byte instructions answer when their last byte is beyond RAM, and from these the obligation. -/

namespace Sys2Proof.Machine

variable {s : State} {X Y : Reg} {N : Nibble}

/-! ### Rows beyond RAM -/

/-- A first row beyond RAM raises with its own address, before any of its columns (R141, R182). -/
theorem blitRows_cons_error_ram (m : Memory) {base r : Nat} (x0 y0 : Nat) (rs : List Nat) (d : Blit)
    (hr : 4095 < base + r) : blitRows m base x0 y0 (r :: rs) d = .error (.ramOutOfRange (base + r)) := by
  rw [blitRows, readByte_error m hr]

/-- Rows `r` to `r + n - 1` that run past RAM, with every row before that on the screen, raise at 4096 (R182). -/
theorem blitRows_range'_error_ram (m : Memory) {base x0 y0 r n : Nat} (d : Blit) (hx : x0 ≤ 56)
    (hy : y0 + (4096 - base) ≤ 32) (hr : base + r ≤ 4096) (hn : 4096 < base + r + n) :
    blitRows m base x0 y0 (List.range' r n) d = .error (.ramOutOfRange 4096) := by
  induction n generalizing r d with
  | zero => omega
  | succ n ih =>
    rw [List.range'_succ]
    obtain hlast | hin := hr.eq_or_lt
    · rw [blitRows_cons_error_ram m x0 y0 _ d (by omega), hlast]
    · obtain ⟨d', hrow, -, -⟩ := blitRows_cons m base x0 y0 r (List.range' (r + 1) n) d hin hx (by omega)
      rw [hrow]
      exact ih d' (by omega) (by omega)

/-! ### The instructions -/

/-- An error of the rows is the error of DRW. -/
theorem execDrw_of_blitRows_error {e : Fault} (h : blitRows s.ram (s.effAddr 0) (s.drawX X) (s.drawY Y)
    (List.range N.toNat) { fb := s.fb, hit := false } = .error e) : execDrw X Y N s = .fault e := by
  simp [execDrw, h, raise]

/-- DRW with `I` beyond RAM and a row to read raises at `I`, whatever its coordinates (R182). -/
theorem execDrw_of_I_gt (hI : 4095 < s.I.toNat) (hN : N ≠ 0) :
    execDrw X Y N s = .fault (.ramOutOfRange s.I.toNat) := by
  obtain ⟨n, hn⟩ : ∃ n, N.toNat = n + 1 := Nat.exists_eq_succ_of_ne_zero (BitVec.toNat_ne_iff_ne.mpr hN)
  apply execDrw_of_blitRows_error
  rw [hn, List.range_eq_range', List.range'_succ]
  exact blitRows_cons_error_ram _ _ _ _ _ hI

/-- DRW whose rows run past RAM before they leave the screen raises at 4096 (R182). -/
theorem execDrw_of_rows_past_ram (hI : s.I.toNat ≤ 4095) (hN : 4096 < s.I.toNat + N.toNat)
    (hx : (s.reg X).toNat % 64 ≤ 56) (hy : (s.reg Y).toNat % 32 + (4096 - s.I.toNat) ≤ 32) :
    execDrw X Y N s = .fault (.ramOutOfRange 4096) := by
  apply execDrw_of_blitRows_error
  rw [List.range_eq_range']
  exact blitRows_range'_error_ram _ _ hx hy (Nat.le_succ_of_le hI) hN

theorem length_regsThrough (s : State) (X : Reg) : (s.regsThrough X).length = X.val + 1 := by
  simp [State.regsThrough]

/-- LDXR without room for `x[0]` to `x[X]` raises at the first address beyond RAM (R182). -/
theorem execLdxr_of_lt (h : 4095 < s.I.toNat + X.val) : execLdxr X s = .fault (.ramOutOfRange (max s.I.toNat 4096)) := by
  have hlen := length_regsThrough s X
  have hwrite : writeBytes s.ram (s.effAddr 0) (s.regsThrough X) = .error (.ramOutOfRange (max s.I.toNat 4096)) :=
    writeBytes_error _ _ _ (by rw [hlen, State.effAddr]; omega) (List.ne_nil_of_length_eq_add_one hlen)
  simp [execLdxr, hwrite, raise]

/-- LDRX without a byte in RAM for each of `x[0]` to `x[X]` raises at the first address beyond RAM (R182). -/
theorem execLdrx_of_lt (h : 4095 < s.I.toNat + X.val) : execLdrx X s = .fault (.ramOutOfRange (max s.I.toNat 4096)) := by
  have hread : readBytes s.ram (s.effAddr 0) (X.val + 1) = .error (.ramOutOfRange (max s.I.toNat 4096)) :=
    readBytes_error _ _ _ (by rw [State.effAddr]; omega) (Nat.succ_ne_zero _)
  simp [execLdrx, hread, raise]

/-- Settles O33, one lemma per access. -/
theorem ramOutOfRangeCauses : Obligations.RamOutOfRangeCauses := by
  intro s X Y N
  exact ⟨fetchWord_error, fun h => execLdb_of_lt (by omega), execLdxr_of_lt, execLdrx_of_lt, execDrw_of_I_gt,
    execDrw_of_rows_past_ram⟩

end Sys2Proof.Machine
end

section
/-! PROOF. The errors of the stack and of the program load (spec/60_exceptions.md R183, R184, R187): what CALL, RET and
`load_program` answer on each side of their check, and from these the obligations. -/

namespace Sys2Proof.Machine

variable {s : State}

/-- CALL with no free slot raises with the stack pointer it found (R183). -/
theorem execCall_of_le (NNN : Addr12) (h : 15 ≤ s.sp.toNat) : execCall NNN s = .fault (.stackOverflow s.sp.toNat) :=
  if_pos h

/-- RET with no address held raises with the stack pointer it found (R184). -/
theorem execRet_of_eq_zero (h : s.sp.toNat = 0) : execRet s = .fault (.stackUnderflow s.sp.toNat) :=
  if_pos h

/-- A program that fits is no error (R214). -/
theorem loadProgram_of_le {bytes : List Byte} (h : bytes.length ≤ 3584) :
    loadProgram bytes s = (s.setRam (s.ram.load 0x200 bytes), none) :=
  if_pos h

/-- A program that does not fit is answered with its length, and the machine is as it was (R187, R215). -/
theorem loadProgram_of_lt {bytes : List Byte} (h : 3584 < bytes.length) :
    loadProgram bytes s = (s, some (.programTooLarge bytes.length)) :=
  if_neg (Nat.not_le_of_lt h)

/-- Settles O22: each check precedes every write, so the raised value is the stack pointer itself. -/
theorem stackErrors : Obligations.StackErrors := by
  refine fun s NNN => ⟨fun hsp => ?call, fun hsp => ?ret, rfl, rfl⟩
  case call =>
    have hsp : s.sp.toNat = 15 := congrArg BitVec.toNat hsp
    exact hsp ▸ execCall_of_le NNN hsp.ge
  case ret =>
    have hsp : s.sp.toNat = 0 := congrArg BitVec.toNat hsp
    exact hsp ▸ execRet_of_eq_zero hsp

/-- Settles O57, by the load on each side of its bound. -/
theorem programTooLargeReported : Obligations.ProgramTooLargeReported := by
  intro s bytes
  refine ⟨loadProgram_of_lt, fun h => ?fits⟩
  case fits => rw [loadProgram_of_le h.le]

end Sys2Proof.Machine
end

section
/-! PROOF. The boot sequence (spec/70_reset_and_hazards.md R216): what an unlisted address reads as inside and outside the
font, a first reset of a constructed machine as `State.reset`, a list of `set_key` calls as one change of the keypad, and
from these the state the sequence ends in. -/

namespace Sys2Proof.Machine

/-! ### The reset contents of RAM -/

/-- Inside the font region the reset contents are FONT_DATA (R27). -/
theorem Memory.unlisted_font {k : Nat} (hk : k < 80) :
    Memory.unlisted (fontAddr + k) = (Config.fontData[k]?).getD 0 := by
  have hfont := fontAddr_le
  rw [Memory.unlisted, if_neg (by omega), if_pos (Nat.le_add_right ..), Nat.add_sub_cancel_left]

/-- Outside it they are 0 (R38). -/
theorem Memory.unlisted_outside_font {a : Nat} (ha : a < fontAddr ∨ fontAddr + 80 ≤ a) : Memory.unlisted a = 0 := by
  unfold Memory.unlisted
  split
  · rfl
  split
  · rw [Vector.getElem?_eq_none (by omega), Option.getD_none]
  · rfl

/-! ### The first reset -/

/-- The memory of a constructed machine has the canonical form, and outside the font it lists nothing. -/
theorem ram_construct : State.construct.ram.wf ∧
    ∀ a, a < fontAddr ∨ fontAddr + 80 ≤ a → State.construct.ram.read a = Memory.unlisted a := by
  have hfont := fontAddr_le
  have hlen : (List.replicate Config.fontBytes (0 : Byte)).length = 80 := List.length_replicate
  obtain ⟨hwf, hread⟩ := Memory.load_read (List.replicate Config.fontBytes 0) [] fontAddr Memory.wf_reset (by omega)
  exact ⟨hwf, fun a ha => (hread a).trans (if_neg (by omega))⟩

/-- The font stored over the zeros of a constructed machine leaves the reset contents. -/
theorem load_font_construct : State.construct.ram.load fontAddr Config.fontData.toList = [] := by
  have hfont := fontAddr_le
  have hlen : Config.fontData.toList.length = 80 := Vector.length_toList
  obtain ⟨hwf, hout⟩ := ram_construct
  obtain ⟨hwf', hread⟩ := Memory.load_read Config.fontData.toList _ fontAddr hwf (by omega)
  refine Memory.ext_read hwf' Memory.wf_reset fun a => ?_
  by_cases ha : a < fontAddr ∨ fontAddr + 80 ≤ a
  case pos => exact ((hread a).trans (if_neg (by omega))).trans (hout a ha)
  case neg =>
    obtain ⟨k, rfl⟩ := Nat.exists_eq_add_of_le (show fontAddr ≤ a by omega)
    have hk : k < 80 := by omega
    exact (read_load_font _ hwf hk).trans (Memory.unlisted_font hk).symm

/-- The first reset of a constructed machine leaves the reset state, whichever value RESET_CLEARS_RAM has (R210 to R212). -/
theorem hostReset_construct : hostReset State.construct = State.reset := by
  have hram : (if Config.resetClearsRam then [] else State.construct.ram.load fontAddr Config.fontData.toList) =
      State.reset.ram := by
    rw [load_font_construct, ite_self]; rfl
  rw [hostReset, hram]
  rfl

/-- Every stack slot of the reset state is 0, and so is what an index beyond the stack reads as (R38). -/
theorem slot_reset (k : Nat) : State.reset.slot k = 0 := by
  have hslot : State.reset.stack[k]? = if k < 16 then some 0 else none := Vector.getElem?_replicate
  rw [State.slot, hslot]
  split <;> rfl

/-! ### The sequence -/

/-- The keypad after a list of `set_key` calls (R41). -/
def keysSet (key : Vector Bool 16) (keys : List (Fin 16 × Bool)) : Vector Bool 16 :=
  keys.foldl (fun m p => m.set p.1.val p.2) key

/-- A list of `set_key` calls completes and changes the keypad only (R41). -/
theorem hostRun_map_setKey (keys : List (Fin 16 × Bool)) (s : State) :
    hostRun (keys.map fun p => .setKey p.1 p.2) s = .ok { s with key := keysSet s.key keys } := by
  induction keys generalizing s with
  | nil => rfl
  | cons p keys ih => exact ih (setKey p.1 p.2 s)

/-- The state R216 describes: the reset state with the program in RAM and the keypad as the host set it. -/
def bootState (bytes : List Byte) (keys : List (Fin 16 × Bool)) : State :=
  { State.reset with
    ram := Memory.load [] Config.progStart bytes
    key := keysSet State.reset.key keys }

/-- The boot sequence of a program that fits completes in that state (R216). -/
theorem hostRun_boot {bytes : List Byte} (keys : List (Fin 16 × Bool)) (h : bytes.length ≤ 3584) :
    hostRun ([.reset, .load bytes] ++ keys.map fun p => .setKey p.1 p.2) State.construct =
      .ok (bootState bytes keys) := by
  calc hostRun ([.reset, .load bytes] ++ keys.map fun p => .setKey p.1 p.2) State.construct
      = hostRun (keys.map fun p => .setKey p.1 p.2) (loadProgram bytes (hostReset State.construct)).1 := rfl
    _ = hostRun (keys.map fun p => .setKey p.1 p.2) (State.reset.setRam (State.reset.ram.load 0x200 bytes)) := by
      rw [hostReset_construct, loadProgram_of_le h]
    _ = .ok (bootState bytes keys) := hostRun_map_setKey keys _

section
variable {bytes : List Byte} (keys : List (Fin 16 × Bool)) (h : bytes.length ≤ 3584)
include h

/-- Each byte of the program reads back (R214). -/
theorem read_bootState_program {k : Nat} (hk : k < bytes.length) :
    (bootState bytes keys).ram.read (0x200 + k) = (bytes[k]?).getD 0 := by
  obtain ⟨-, hread⟩ := Memory.load_read bytes [] 0x200 Memory.wf_reset (by omega)
  exact (hread _).trans (by rw [if_pos (by omega), Nat.add_sub_cancel_left])

/-- Outside the program RAM holds the reset contents (R214). -/
theorem read_bootState_outside {a : Nat} (ha : a < 0x200 ∨ 0x200 + bytes.length ≤ a) :
    (bootState bytes keys).ram.read a = Memory.unlisted a := by
  obtain ⟨-, hread⟩ := Memory.load_read bytes [] 0x200 Memory.wf_reset (by omega)
  exact (hread a).trans (if_neg (by omega))

end

/-- The first word fetched is the first two bytes of the program, big-endian (R216). -/
theorem fetchWord_bootState (keys : List (Fin 16 × Bool)) {b0 b1 : Byte} {rest : List Byte}
    (h : (b0 :: b1 :: rest).length ≤ 3584) : fetchWord (bootState (b0 :: b1 :: rest) keys) = .ok (b0 ++ b1) := by
  have hpc : (bootState (b0 :: b1 :: rest) keys).pc.toNat = 0x200 := rfl
  have hfirst := read_bootState_program keys h (k := 0) (by simp)
  have hsecond := read_bootState_program keys h (k := 1) (by simp)
  rw [fetchWord_ok (by omega), hpc, hfirst, hsecond]
  rfl

/-- Settles O55: the sequence ends in `bootState`, whose fields other than RAM and the keypad are those of the reset state;
the font lies below the program, so it reads as the reset contents do. -/
theorem bootSequence : Obligations.BootSequence := by
  intro bytes keys h
  refine ⟨bootState bytes keys, hostRun_boot keys h, fun r => Vector.getElem_replicate r.isLt, rfl, rfl, rfl, slot_reset,
    rfl, rfl, fun i _ => fbGet_fbClear i, rfl, fun k hk => ?font, fun k hk => read_bootState_program keys h hk,
    fun a hfont hprog => ?elsewhere, ?firstWord⟩
  case font =>
    have hfont := fontAddr_le
    exact (read_bootState_outside keys h (a := fontAddr + k) (.inl (by omega))).trans (Memory.unlisted_font hk)
  case elsewhere => exact (read_bootState_outside keys h hprog).trans (Memory.unlisted_outside_font hfont)
  case firstWord =>
    rintro b0 b1 rest rfl
    exact fetchWord_bootState keys h

end Sys2Proof.Machine
end

section
/-! PROOF. The decoder and the encoder undo each other (spec/30_encoding.md R75 to R90): a word rebuilt from the fields its
format names, family by family, and from this the round trips and the exact unknown space of R86. -/

namespace Sys2Proof.Machine

variable {w : Word}

/-! ### A word rebuilt from known selectors -/

theorem wordA_of_fields {op : Nibble} (hop : opOf w = op) : wordA op (nnnOf w) = w :=
  hop ▸ wordA_fields w

theorem wordI_of_fields {op : Nibble} (hop : opOf w = op) : wordI op (regField (xOf w)) (kkOf w) = w :=
  hop ▸ wordI_fields w

theorem wordI_of_selector {op : Nibble} {kk : Byte} (hop : opOf w = op) (hkk : kkOf w = kk) :
    wordI op (regField (xOf w)) kk = w :=
  hkk ▸ wordI_of_fields hop

theorem word4_of_fields {op : Nibble} (hop : opOf w = op) :
    word4 op (regField (xOf w)) (regField (yOf w)) (nOf w) = w :=
  hop ▸ word4_fields w

theorem word4_of_selector {op n : Nibble} (hop : opOf w = op) (hn : nOf w = n) :
    word4 op (regField (xOf w)) (regField (yOf w)) n = w :=
  hn ▸ word4_of_fields hop

/-! ### The families -/

/-- An answer of the decoder for `w` from which `w` is recovered, and which R88 allows. -/
def Recovers (w : Word) (i : Instr) : Prop := encode i = w ∧ wellFormed i = true

theorem recovers_ite {c : Prop} [Decidable c] {i j : Instr} (hi : c → Recovers w i) (hj : ¬ c → Recovers w j) :
    Recovers w (if c then i else j) :=
  iteInduction hi hj

theorem recovers_decodeZero (hop : opOf w = 0x0) : Recovers w (decodeZero w) := by
  unfold decodeZero
  split_ifs with hcls hret
  · exact ⟨hcls.symm, rfl⟩
  · exact ⟨hret.symm, rfl⟩
  · exact ⟨rfl, by simpa [wellFormed, isUnknownWord_eq, hop] using And.intro hcls hret⟩

/-- A low nibble that selects no sub-operation of family 8 is one of the seven R86 lists. -/
theorem mem_unknownEight {n : Nibble} (h0 : n ≠ 0x0) (h1 : n ≠ 0x1) (h2 : n ≠ 0x2) (h3 : n ≠ 0x3) (h4 : n ≠ 0x4)
    (h5 : n ≠ 0x5) (h6 : n ≠ 0x6) (h7 : n ≠ 0x7) (hE : n ≠ 0xE) :
    n ∈ ([0x8, 0x9, 0xA, 0xB, 0xC, 0xD, 0xF] : List Nibble) := by
  revert n
  decide

theorem recovers_decodeEight (hop : opOf w = 0x8) : Recovers w (decodeEight w) := by
  simp only [decodeEight]
  split_ifs with h0 h1 h2 h3 h4 h5 h6 h7 hE
  case neg =>
    have hn := mem_unknownEight h0 h1 h2 h3 h4 h5 h6 h7 hE
    exact ⟨rfl, by simp only [wellFormed, isUnknownWord_eq, hop]; exact decide_eq_true hn⟩
  all_goals exact ⟨word4_of_selector hop ‹_›, rfl⟩

theorem recovers_decodeE (hop : opOf w = 0xE) : Recovers w (decodeE w) := by
  simp only [decodeE]
  split_ifs with hskp hsknp
  case neg => exact ⟨rfl, by simpa [wellFormed, isUnknownWord_eq, hop] using And.intro hskp hsknp⟩
  all_goals exact ⟨wordI_of_selector hop ‹_›, rfl⟩

theorem recovers_decodeF (hop : opOf w = 0xF) : Recovers w (decodeF w) := by
  simp only [decodeF]
  split_ifs with h07 h0A h15 h18 h1E h29 h33 h55 h65
  case neg =>
    have hkk : kkOf w ∉ ([0x07, 0x0A, 0x15, 0x18, 0x1E, 0x29, 0x33, 0x55, 0x65] : List Byte) := by
      simp only [List.mem_cons, List.not_mem_nil, or_false, not_or]
      exact ⟨h07, h0A, h15, h18, h1E, h29, h33, h55, h65⟩
    exact ⟨rfl, by simp only [wellFormed, isUnknownWord_eq, hop]; exact decide_eq_true hkk⟩
  all_goals exact ⟨wordI_of_selector hop ‹_›, rfl⟩

/-- Families 5 and 9 have one instruction each, selected by low nibble 0 (R79, R81). -/
theorem recovers_ite_nOf {op : Nibble} {i : Instr} (hop : opOf w = op) (hfamily : op = 0x5 ∨ op = 0x9)
    (hwf : wellFormed i = true) (hi : encode i = word4 op (regField (xOf w)) (regField (yOf w)) 0x0) :
    Recovers w (if nOf w = 0x0 then i else .unk w) := by
  split_ifs with hn
  · exact ⟨hi.trans (word4_of_selector hop hn), hwf⟩
  · obtain rfl | rfl := hfamily
    all_goals exact ⟨rfl, by simpa [wellFormed, isUnknownWord_eq, hop] using hn⟩

/-- The last high nibble. -/
theorem nibble_eq_fifteen {n : Nibble} (h0 : n ≠ 0x0) (h1 : n ≠ 0x1) (h2 : n ≠ 0x2) (h3 : n ≠ 0x3) (h4 : n ≠ 0x4)
    (h5 : n ≠ 0x5) (h6 : n ≠ 0x6) (h7 : n ≠ 0x7) (h8 : n ≠ 0x8) (h9 : n ≠ 0x9) (hA : n ≠ 0xA) (hB : n ≠ 0xB)
    (hC : n ≠ 0xC) (hD : n ≠ 0xD) (hE : n ≠ 0xE) : n = 0xF := by
  bv_omega

/-- Every word is recovered from its decoding, which is well formed: by the high nibble. -/
theorem recovers_decode (w : Word) : Recovers w (decode w) := by
  unfold decode
  refine recovers_ite recovers_decodeZero fun h0 => ?_
  refine recovers_ite (fun h => ⟨wordA_of_fields h, rfl⟩) fun h1 => ?_
  refine recovers_ite (fun h => ⟨wordA_of_fields h, rfl⟩) fun h2 => ?_
  refine recovers_ite (fun h => ⟨wordI_of_fields h, rfl⟩) fun h3 => ?_
  refine recovers_ite (fun h => ⟨wordI_of_fields h, rfl⟩) fun h4 => ?_
  refine recovers_ite (fun h => recovers_ite_nOf h (.inl rfl) rfl rfl) fun h5 => ?_
  refine recovers_ite (fun h => ⟨wordI_of_fields h, rfl⟩) fun h6 => ?_
  refine recovers_ite (fun h => ⟨wordI_of_fields h, rfl⟩) fun h7 => ?_
  refine recovers_ite recovers_decodeEight fun h8 => ?_
  refine recovers_ite (fun h => recovers_ite_nOf h (.inr rfl) rfl rfl) fun h9 => ?_
  refine recovers_ite (fun h => ⟨wordA_of_fields h, rfl⟩) fun hA => ?_
  refine recovers_ite (fun h => ⟨wordA_of_fields h, rfl⟩) fun hB => ?_
  refine recovers_ite (fun h => ⟨wordI_of_fields h, rfl⟩) fun hC => ?_
  refine recovers_ite (fun h => ⟨word4_of_fields h, rfl⟩) fun hD => ?_
  refine recovers_ite recovers_decodeE fun hE => ?_
  exact recovers_decodeF (nibble_eq_fifteen h0 h1 h2 h3 h4 h5 h6 h7 h8 h9 hA hB hC hD hE)

/-! ### The obligations -/

/-- Settles O3: the two halves of `Recovers`. -/
theorem encodeOfDecode : Obligations.EncodeOfDecode :=
  recovers_decode

/-- Settles O4: a word that decodes to unknown/data is what that variant encodes to, and the variant is well formed. -/
theorem unknownSpaceExact : Obligations.UnknownSpaceExact := by
  refine fun w v => ⟨fun h => ?listed, ?unknown⟩
  case listed =>
    obtain ⟨hencode, hwf⟩ := recovers_decode w
    rw [h] at hencode hwf
    obtain rfl : v = w := hencode
    exact ⟨hwf, rfl⟩
  case unknown =>
    rintro ⟨hlisted, rfl⟩
    exact decode_of_isUnknownWord hlisted

/-- Settles O2, by the formats: a word of a 12-bit address is decoded by its high nibble, one of family E or F also by
the low byte, one of family 5, 8 or 9 also by the low nibble. -/
theorem decodeOfEncode : Obligations.DecodeOfEncode := by
  intro i hwf
  cases i with
  | unk w => exact decode_of_isUnknownWord hwf
  | cls | ret => decide
  | jp NNN | call NNN | ldix NNN | jpa NNN => simp [encode, decode]
  | sei X KK | snei X KK | ldi X KK | addi X KK | rnd X KK => simp [encode, decode]
  | se X Y | sne X Y | drw X Y N => simp [encode, decode]
  | ld X Y | or X Y | and X Y | xor X Y | add X Y | sub X Y | shr X Y | subn X Y | shl X Y =>
    exact (decode_word4_eight ..).trans (by simp [decodeEight])
  | skp X | sknp X => simp [encode, decode, decodeE]
  | rdt X | ldk X | sdt X | sst X | addix X | ldf X | ldb X | ldxr X | ldrx X =>
    exact (decode_wordI_fifteen ..).trans (by simp [decodeF])

end Sys2Proof.Machine
end

section
/-! PROOF. What an instruction that completes can have changed, said once for all of them as a relation with one form per
kind of change (spec/10_state.md R22, R28 to R35), and from it the frames of registers, RAM and special state. -/

namespace Sys2Proof.Machine

variable {i : Instr} {s t : State}

/-! ### The forms of a change -/

/-- `t` is `s` but for registers that `i` may write (R22). -/
def WritesOwnRegs (i : Instr) (s t : State) : Prop :=
  SameButRegs s t ∧ ∀ q, writesReg i q = false → t.reg q = s.reg q

/-- What `i` can have made of `s` when it completes. -/
inductive Effect (i : Instr) (s : State) : State → Prop where
  /-- Registers only, or nothing at all (R100 to R110, R152, R153, R170). -/
  | regs {t : State} (ht : WritesOwnRegs i s t) : Effect i s t
  /-- RND: its register, and the draw (R111). -/
  | random {u : State} (hu : WritesOwnRegs i s u) : Effect i s u.countDraw
  /-- `pc` only: the jumps, the skips and the key wait (R24). -/
  | jump (v : Word) : Effect i s (s.setPc v)
  /-- CALL with a free slot (R122). -/
  | push (NNN : Addr12) (hi : i = .call NNN) (hfree : s.sp.toNat < 15) : Effect i s (s.pushPc.setPc (zext16 NNN))
  /-- RET with an address held (R123). -/
  | pop (hi : i = .ret) (hheld : 0 < s.sp.toNat) (hslot : s.sp.toNat ≤ 15) : Effect i s s.popPc
  /-- CLS, and DRW after its write of the flags register (R140, R141). -/
  | screen {u : State} (g : Vector Bool 2048) (hi : writesFb i) (hu : WritesOwnRegs i s u) : Effect i s (u.showFb g)
  /-- `I` only (R165 to R167). -/
  | index (v : Word) (hi : writesI i) : Effect i s (s.setI v)
  /-- The bytes `i` stores, which are at least one (R168, R169). -/
  | store {m : Memory} (a : Nat) (ha : storesTo i s a)
      (hm : s.ram.wf → m.wf ∧ ∀ b, ¬ storesTo i s b → m.read b = s.ram.read b) : Effect i s (s.setRam m)
  /-- SDT (R154). -/
  | delay (X : Reg) (hi : i = .sdt X) : Effect i s (s.setDt (s.reg X))
  /-- SST (R155). -/
  | sound (X : Reg) (hi : i = .sst X) : Effect i s (s.setSt (s.reg X))
  /-- The diagnostic of an unknown word (R129). -/
  | diagnostic (w : Word) (hi : i = .unk w) : Effect i s (s.setUnknown w)

/-! ### The forms of the register writers -/

theorem SameButRegs.ram_eq (h : SameButRegs s t) : t.ram = s.ram := by rw [h]

theorem writesOwnRegs_refl (i : Instr) (s : State) : WritesOwnRegs i s s := ⟨rfl, fun _ _ => rfl⟩

theorem writesOwnRegs_setReg {X : Reg} (v : Byte) (hX : writesReg i X = true) : WritesOwnRegs i s (s.setReg X v) := by
  refine ⟨rfl, fun q hq => ?_⟩
  have hne : q ≠ X := fun h => by simp [h, hX] at hq
  simp [hne]

theorem writesOwnRegs_setResultAndFlag {X : Reg} (v : Byte) (b : Bool) (hX : writesReg i X = true)
    (hflag : writesReg i 15 = true) : WritesOwnRegs i s (s.setResultAndFlag X v b) := by
  refine ⟨sameButRegs_setResultAndFlag X v b, fun q hq => ?_⟩
  have hne : q ≠ X := fun h => by simp [h, hX] at hq
  have hne15 : q ≠ 15 := fun h => by simp [h, hflag] at hq
  simp [hne, hne15]

theorem length_readBytes {m : Memory} {a n : Nat} {bs : List Byte} (h : readBytes m a n = .ok bs) : bs.length = n := by
  by_cases hle : a + n ≤ 4096
  · rw [readBytes_ok n m a hle] at h
    simp [← Except.ok.inj h]
  · obtain rfl | hn := Nat.eq_zero_or_pos n
    · simp [← Except.ok.inj h]
    · rw [readBytes_error n m a (by omega) hn.ne'] at h
      cases h

theorem writesOwnRegs_setRegs {X : Reg} {bs : List Byte} (hlen : bs.length = X.val + 1) :
    WritesOwnRegs (.ldrx X) s (s.setRegs bs) := by
  refine ⟨rfl, fun q hq => ?_⟩
  have hlt : X.val < q.val := by simpa [writesReg] using hq
  rw [State.reg_setRegs, List.getElem?_eq_none (by omega), Option.getD_none]

/-! ### The form of a store -/

theorem writeBytes_frame {m m' : Memory} {a : Nat} {bs : List Byte} (hm : m.wf) (hne : bs ≠ [])
    (h : writeBytes m a bs = .ok m') :
    m'.wf ∧ ∀ b, m'.read b = if a ≤ b ∧ b < a + bs.length then (bs[b - a]?).getD 0 else m.read b := by
  by_cases hle : a + bs.length ≤ 4096
  · obtain ⟨n, hn, hwf, hread⟩ := writeBytes_ok bs m a hm hle
    obtain rfl := Except.ok.inj (hn.symm.trans h)
    exact ⟨hwf, hread⟩
  · rw [writeBytes_error bs m a (by omega) hne] at h
    cases h

/-- A completed store of the bytes at `I`, `I + 1` and so on (R55). -/
theorem effect_store {bs : List Byte} {m : Memory} (h : writeBytes s.ram (s.effAddr 0) bs = .ok m) (hne : bs ≠ [])
    (hi : ∀ a, storesTo i s a ↔ s.I.toNat ≤ a ∧ a < s.I.toNat + bs.length) : Effect i s (s.setRam m) := by
  have hpos := List.length_pos_of_ne_nil hne
  refine .store s.I.toNat ((hi _).mpr (by omega)) fun hm => ?_
  obtain ⟨hwf, hread⟩ := writeBytes_frame hm hne h
  exact ⟨hwf, fun b hb => (hread b).trans (if_neg fun hin => hb ((hi b).mpr hin))⟩

theorem storesTo_ldb (X : Reg) (s : State) (a : Nat) : storesTo (.ldb X) s a ↔ s.I.toNat ≤ a ∧ a < s.I.toNat + 3 := by
  simp only [storesTo, State.effAddr]; omega

theorem storesTo_ldxr (X : Reg) (s : State) (a : Nat) :
    storesTo (.ldxr X) s a ↔ s.I.toNat ≤ a ∧ a < s.I.toNat + (X.val + 1) := by
  simp only [storesTo, State.effAddr]; omega

/-! ### Every completed instruction -/

/-- A skip is a jump to the next instruction or to the one after (R130). -/
theorem effect_skipIf (c : Bool) : Effect i s (s.skipIf c) := by
  cases c
  · exact .regs (writesOwnRegs_refl i s)
  · exact .jump (s.pc + 2)

/-- A completed instruction has one of the forms. -/
theorem exec_effect (h : exec i s = .next t) : Effect i s t := by
  cases i with
  | cls => obtain rfl := Host.Outcome.next.inj h; exact .screen fbClear (.inl rfl) (writesOwnRegs_refl _ s)
  | ret => obtain ⟨hheld, hslot, rfl⟩ := execRet_next h; exact .pop rfl hheld hslot
  | call NNN => obtain ⟨hfree, rfl⟩ := execCall_next h; exact .push NNN rfl hfree
  | jp NNN | jpa NNN => obtain rfl := Host.Outcome.next.inj h; exact .jump _
  | sei X KK | snei X KK | se X Y | sne X Y => obtain rfl := Host.Outcome.next.inj h; exact effect_skipIf _
  | skp X => obtain ⟨-, rfl⟩ := execSkp_next h; exact effect_skipIf _
  | sknp X => obtain ⟨-, rfl⟩ := execSknp_next h; exact effect_skipIf _
  | ldi X KK | addi X KK | ld X Y | or X Y | and X Y | xor X Y | rdt X =>
    obtain rfl := Host.Outcome.next.inj h
    exact .regs (writesOwnRegs_setReg _ (by simp [writesReg]))
  | add X Y | sub X Y | subn X Y | shr X Y | shl X Y =>
    obtain rfl := Host.Outcome.next.inj h
    exact .regs (writesOwnRegs_setResultAndFlag _ _ (by simp [writesReg]) (by simp [writesReg]))
  | rnd X KK =>
    obtain rfl := Host.Outcome.next.inj h
    exact .random (writesOwnRegs_setReg _ (by simp [writesReg]))
  | drw X Y N =>
    obtain ⟨d, -, rfl⟩ := execDrw_next h
    exact .screen d.fb (.inr ⟨X, Y, N, rfl⟩) (writesOwnRegs_setReg _ rfl)
  | ldk X =>
    obtain hnone | ⟨k, hk⟩ := s.lowestKey.eq_none_or_eq_some
    · obtain rfl := Host.Outcome.next.inj ((execLdk_of_lowestKey_eq_none X hnone).symm.trans h)
      exact .jump _
    · obtain rfl := Host.Outcome.next.inj ((execLdk_of_lowestKey_eq_some X hk).symm.trans h)
      exact .regs (writesOwnRegs_setReg _ (by simp [writesReg]))
  | sdt X => obtain rfl := Host.Outcome.next.inj h; exact .delay X rfl
  | sst X => obtain rfl := Host.Outcome.next.inj h; exact .sound X rfl
  | ldix NNN => obtain rfl := Host.Outcome.next.inj h; exact .index _ (.inl ⟨NNN, rfl⟩)
  | addix X => obtain rfl := Host.Outcome.next.inj h; exact .index _ (.inr (.inl ⟨X, rfl⟩))
  | ldf X => obtain rfl := Host.Outcome.next.inj h; exact .index _ (.inr (.inr ⟨X, rfl⟩))
  | ldb X =>
    obtain ⟨m, hm, rfl⟩ := execLdb_next h
    exact effect_store hm (List.cons_ne_nil _ _) (storesTo_ldb X s)
  | ldxr X =>
    obtain ⟨m, hm, rfl⟩ := execLdxr_next h
    have hlen := length_regsThrough s X
    exact effect_store hm (List.ne_nil_of_length_eq_add_one hlen) (hlen ▸ storesTo_ldxr X s)
  | ldrx X =>
    obtain ⟨bs, hbs, rfl⟩ := execLdrx_next h
    exact .regs (writesOwnRegs_setRegs (length_readBytes hbs))
  | unk w => obtain rfl := Host.Outcome.next.inj h; exact .diagnostic w rfl

/-! ### The frames -/

/-- Settles O45: of the forms only those that write registers of the instruction's own touch a register. -/
theorem registerFrame : Obligations.RegisterFrame := by
  intro i s t q h hq
  cases exec_effect h with
  | regs ht => exact ht.2 q hq
  | random hu => exact hu.2 q hq
  | screen g _ hu => exact hu.2 q hq
  | jump | push | pop | index | store | delay | sound | diagnostic => rfl

/-- An instruction that completes keeps RAM, or stores bytes of its own in it and keeps its canonical form. -/
theorem ram_of_exec (h : exec i s = .next t) :
    t.ram = s.ram ∨ (∃ a, storesTo i s a) ∧
      (s.ram.wf → t.ram.wf ∧ ∀ b, ¬ storesTo i s b → t.ram.read b = s.ram.read b) := by
  cases exec_effect h with
  | store a ha hm => exact .inr ⟨⟨a, ha⟩, hm⟩
  | regs ht => exact .inl ht.1.ram_eq
  | random hu => exact .inl hu.1.ram_eq
  | screen g _ hu => exact .inl hu.1.ram_eq
  | jump | push | pop | index | delay | sound | diagnostic => exact .inl rfl

/-- Settles O46, by `ram_of_exec`. -/
theorem ramFrame : Obligations.RamFrame := by
  intro i s t h
  obtain hram | ⟨⟨a, ha⟩, hm⟩ := ram_of_exec h
  · exact ⟨fun _ b => by rw [hram], fun _ b _ => by rw [hram]⟩
  · exact ⟨fun hnone => absurd ha (hnone a), fun hwf => (hm hwf).2⟩

/-- Settles O47, by the forms: each element changes in the form of its own writers only. -/
theorem specialStateFrame : Obligations.SpecialStateFrame := by
  intro i s t h
  cases exec_effect h with
  | regs ht => rw [ht.1]; simp
  | random hu => rw [hu.1]; simp
  | screen g hi hu => rw [hu.1]; simp [hi]
  | jump v => simp
  | push NNN hi => simp [touchesStack, hi]
  | pop hi => simp [touchesStack, hi]
  | index v hi => simp [hi]
  | store => simp
  | delay X hi => simp [hi]
  | sound X hi => simp [hi]
  | diagnostic w hi => simp [hi]

end Sys2Proof.Machine
end

section
/-! PROOF. Jumps, CALL and RET (spec/41_control.md R121 to R124) and the stack as a list (R131): the stack pointer as a
number, the list with one address more, and from these the obligations. -/

namespace Sys2Proof.Machine

variable {i : Instr} {s t : State}

/-! ### The stack pointer as a number -/

theorem toNat_sp_pushPc (h : s.sp.toNat < 15) : s.pushPc.sp.toNat = s.sp.toNat + 1 := by
  rw [State.sp_pushPc]; bv_omega

theorem toNat_sp_popPc (h : 0 < s.sp.toNat) : s.popPc.sp.toNat + 1 = s.sp.toNat := by
  rw [State.sp_popPc]; bv_omega

/-! ### The jumps -/

theorem toNat_zext16 (NNN : Addr12) : (zext16 NNN).toNat = NNN.toNat :=
  BitVec.toNat_setWidth_of_le (by decide)

theorem toNat_zextReg (v : Byte) : (zextReg v).toNat = v.toNat :=
  BitVec.toNat_setWidth_of_le (by decide)

/-- The target of JPA does not wrap (R124). -/
theorem toNat_jpaTarget (NNN : Addr12) (v : Byte) : (zext16 NNN + zextReg v).toNat = NNN.toNat + v.toNat := by
  have hNNN := NNN.isLt
  have hv := v.isLt
  rw [BitVec.toNat_add, toNat_zext16, toNat_zextReg]
  omega

/-- Settles O19: neither target is reduced. -/
theorem jumpTargets : Obligations.JumpTargets :=
  fun s NNN => ⟨⟨_, rfl, toNat_zext16 NNN, rfl⟩, ⟨_, rfl, toNat_jpaTarget NNN (s.reg 0), rfl⟩⟩

/-! ### CALL and RET -/

/-- CALL with a free slot completes (R122). -/
theorem execCall_of_lt (NNN : Addr12) (h : s.sp.toNat < 15) : execCall NNN s = .next (s.pushPc.setPc (zext16 NNN)) :=
  if_neg (Nat.not_le_of_lt h)

/-- RET with an address held completes (R123). -/
theorem execRet_of_pos (hheld : 0 < s.sp.toNat) (hslot : s.sp.toNat ≤ 15) : execRet s = .next s.popPc :=
  (if_neg hheld.ne').trans (if_neg (Nat.not_lt_of_le hslot))

/-- Settles O20: the push writes the slot the new stack pointer names. -/
theorem callPushes : Obligations.CallPushes := by
  refine fun s NNN h => ⟨_, execCall_of_lt NNN h, toNat_zext16 NNN, toNat_sp_pushPc h, ?pushed, fun k hk => ?others, rfl⟩
  case pushed => rw [State.sp_setPc, toNat_sp_pushPc h, State.slot_setPc, State.slot_pushPc s h, if_pos rfl]
  case others =>
    rw [State.sp_setPc, toNat_sp_pushPc h] at hk
    rw [State.slot_setPc, State.slot_pushPc s h, if_neg hk]

/-- Settles O21: RET is the pop. -/
theorem retPops : Obligations.RetPops :=
  fun _ hheld hslot => ⟨_, execRet_of_pos hheld hslot, rfl, toNat_sp_popPc hheld, rfl⟩

/-! ### The list -/

theorem length_calls (s : State) : s.calls.length = s.sp.toNat := by
  simp [State.calls]

/-- The list is the addresses in the slots below the stack pointer, whatever the other slots hold (R131). -/
theorem calls_congr (hsp : t.sp.toNat = s.sp.toNat) (hslot : ∀ k, k < s.sp.toNat → t.slot (k + 1) = s.slot (k + 1)) :
    t.calls = s.calls := by
  rw [State.calls, State.calls, hsp]
  exact List.map_congr_left fun k hk => hslot k (List.mem_range.mp (List.mem_reverse.mp hk))

/-- With an address held, the list is that address in front of the list below it (R131). -/
theorem calls_eq_cons (hheld : 0 < s.sp.toNat) : s.calls = s.slot s.sp.toNat :: s.popPc.calls := by
  have hpop := toNat_sp_popPc hheld
  rw [State.calls, State.calls, ← hpop, List.range_succ, List.reverse_append]
  rfl

/-- A push puts `pc` in front of the list (R131). -/
theorem calls_pushPc (h : s.sp.toNat < 15) : s.pushPc.calls = s.pc :: s.calls := by
  have hpush := toNat_sp_pushPc h
  rw [calls_eq_cons (by omega), hpush, State.slot_pushPc s h, if_pos rfl]
  congr 1
  refine calls_congr ?sp fun k hk => ?slot
  case sp => have := toNat_sp_popPc (s := s.pushPc) (by omega); omega
  case slot => rw [State.slot_popPc, State.slot_pushPc s h, if_neg (by omega)]

/-- An instruction that completes keeps the stack pointer within the stack. -/
theorem sp_le_of_exec (hsp : s.sp.toNat ≤ 15) (h : exec i s = .next t) : t.sp.toNat ≤ 15 := by
  by_cases hi : touchesStack i
  · obtain ⟨NNN, rfl⟩ | rfl := hi
    · obtain ⟨hfree, rfl⟩ := execCall_next h
      exact (toNat_sp_pushPc hfree).trans_le hfree
    · obtain ⟨hheld, -, rfl⟩ := execRet_next h
      have hpop := toNat_sp_popPc hheld
      omega
  · obtain ⟨-, hstack, -⟩ := specialStateFrame i s t h
    exact (hstack hi).1 ▸ hsp

/-- Settles O26, by the push, the pop and the frame of the stack. -/
theorem stackIsLastInFirstOut : Obligations.StackIsLastInFirstOut := by
  refine fun i s t hsp h => ⟨length_calls t, sp_le_of_exec hsp h, ?call, ?ret, fun hi => ?other⟩
  case call =>
    rintro ⟨NNN, rfl⟩
    obtain ⟨hfree, rfl⟩ := execCall_next h
    exact calls_pushPc hfree
  case ret =>
    rintro rfl
    obtain ⟨hheld, -, rfl⟩ := execRet_next h
    exact calls_eq_cons hheld
  case other =>
    obtain ⟨-, hstack, -⟩ := specialStateFrame i s t h
    obtain ⟨hsp, hslots⟩ := hstack hi
    exact calls_congr (congrArg BitVec.toNat hsp) fun k _ => by rw [State.slot, State.slot, hslots]

end Sys2Proof.Machine
end

section
/-! PROOF. What every completed step does: the tick after the instruction (spec/43_keypad_timers.md R156), the refusals
(spec/60_exceptions.md R192), and the invariant of a running machine (spec/10_state.md R25, R29, R31, R132). -/

namespace Sys2Proof.Machine

variable {i : Instr} {s t : State}

/-! ### Timers -/

theorem toNat_tickTimer (v : Byte) : (tickTimer v).toNat = v.toNat - 1 := by
  unfold tickTimer
  split <;> bv_omega

/-- Settles O37: the tick follows the instruction, which changes a timer only if it is SDT or SST. -/
theorem stepTicksTimers : Obligations.StepTicksTimers := by
  intro s t h
  obtain ⟨w, u, -, hw, hexec, rfl⟩ := step_next h
  obtain ⟨-, -, hdt, hst, -⟩ := specialStateFrame _ _ _ hexec
  refine ⟨w, hw, fun X hX => ?sdt, fun hX => ?dt, fun X hX => ?sst, fun hX => ?st⟩
  case sdt => rw [hX] at hexec; obtain rfl := Host.Outcome.next.inj hexec; exact toNat_tickTimer _
  case dt => rw [State.dt_tick, toNat_tickTimer, hdt hX, State.dt_beginStep]
  case sst => rw [hX] at hexec; obtain rfl := Host.Outcome.next.inj hexec; exact toNat_tickTimer _
  case st => rw [State.st_tick, toNat_tickTimer, hst hX, State.st_beginStep]

/-! ### Refusals -/

/-- Settles O7: the fetch raises and no instruction is refused, so the mark is the one cause. -/
theorem onlyFaultedStepsRefused : Obligations.OnlyFaultedStepsRefused := by
  refine ⟨exec_ne_refused, fun s r => ⟨fun h => ?marked, ?refused⟩⟩
  case marked =>
    unfold step at h
    split at h
    next hf => exact ⟨hf, (Host.Outcome.refused.inj h).symm⟩
    split at h
    next => cases h
    next w _ =>
      split at h
      next => cases h
      next => cases h
      next hexec => exact absurd hexec (exec_ne_refused _ _ _)
  case refused =>
    rintro ⟨hf, rfl⟩
    exact step_of_faulted hf

/-- Settles O59: `set_key` and `load_program` write other fields, and `reset` starts from a machine without the mark. -/
theorem faultedUntilReset : Obligations.FaultedUntilReset := by
  refine fun s bytes k b hf => ⟨?refused, rfl, ?loaded, hf⟩
  case refused => simp [hostCall, hostStep, step_of_faulted hf]
  case loaded => rw [loadProgram]; split <;> exact hf

/-- Settles O60: the step is the jump to where `pc` was, and the tick. -/
theorem jumpToSelfParks : Obligations.JumpToSelfParks := by
  intro s NNN hf hpc hself hword
  have hdecode : decode (wordA 0x1 NNN) = .jp NNN := decodeOfEncode (.jp NNN) rfl
  have hexec : exec (decode (wordA 0x1 NNN)) s.beginStep = .next (s.beginStep.setPc (zext16 NNN)) := by
    rw [hdecode]; rfl
  have htarget : zext16 NNN = s.pc := BitVec.eq_of_toNat_eq ((toNat_zext16 NNN).trans hself.symm)
  calc step s
      = .next (s.beginStep.setPc (zext16 NNN)).tick := step_of_exec_next hf (hword ▸ fetchWord_ok hpc) hexec
    _ = _ := by rw [tick_eq, htarget]; rfl

/-! ### The invariant -/

/-- Settles O48: memory lists nothing, every slot is 0 and `pc` is 0x200. -/
theorem invariantAtReset : Obligations.InvariantAtReset where
  ram_wf := Memory.wf_reset
  sp_le := by decide
  pc_le := by decide
  slots_le k := by rw [slot_reset]; decide
  slot_zero := slot_reset 0

/-- An instruction that completes keeps the canonical form of RAM. -/
theorem ram_wf_of_exec (hm : s.ram.wf) (h : exec i s = .next t) : t.ram.wf := by
  obtain hram | ⟨-, hstore⟩ := ram_of_exec h
  · exact hram ▸ hm
  · exact (hstore hm).1

/-- An instruction that completes changes a slot only to the `pc` it saw, and never slot 0 (R29, R122). -/
theorem slot_of_exec (h : exec i s = .next t) (k : Nat) : t.slot k = s.slot k ∨ k ≠ 0 ∧ t.slot k = s.pc := by
  by_cases hi : touchesStack i
  · obtain ⟨NNN, rfl⟩ | rfl := hi
    · obtain ⟨hfree, rfl⟩ := execCall_next h
      rw [State.slot_setPc, State.slot_pushPc s hfree]
      split
      · next hk => exact .inr ⟨by omega, rfl⟩
      · exact .inl rfl
    · obtain ⟨-, -, rfl⟩ := execRet_next h
      exact .inl rfl
  · obtain ⟨-, hstack, -⟩ := specialStateFrame i s t h
    exact .inl (by rw [State.slot, State.slot, (hstack hi).2])

/-- From a fetchable address every instruction leaves `pc` within its range: an address field, a return address, a JPA target,
or at most `a + 4` (R24, R25). -/
theorem pcAfter_le {a : Word} (ha : a.toNat < 4095) (hslots : ∀ k, (s.slot k).toNat ≤ 4096) (i : Instr) :
    (pcAfter i s a).toNat ≤ 0x10FE := by
  have h2 : (a + 2).toNat ≤ 0x10FE := by bv_omega
  have h4 : (a + 4).toNat ≤ 0x10FE := by bv_omega
  cases i with
  | jp NNN | call NNN => exact (toNat_zext16 NNN).trans_le (by have := NNN.isLt; omega)
  | ret => exact (hslots _).trans (by decide)
  | jpa NNN =>
    have hNNN := NNN.isLt
    have hv := (s.reg 0).isLt
    exact (toNat_jpaTarget NNN (s.reg 0)).trans_le (by omega)
  | ldk X => rw [pcAfter]; split <;> omega
  | sei X KK | snei X KK | se X Y | sne X Y | skp X | sknp X => rw [pcAfter]; split <;> assumption
  | cls | ldi X KK | addi X KK | ld X Y | or X Y | and X Y | xor X Y | add X Y | sub X Y | shr X Y | subn X Y | shl X Y
  | ldix NNN | rnd X KK | drw X Y N | rdt X | sdt X | sst X | addix X | ldf X | ldb X | ldxr X | ldrx X | unk w => exact h2

/-- Settles O49: the fetch succeeded, so `pc` was below 4095, and the instruction keeps each part. -/
theorem stepKeepsInvariant : Obligations.StepKeepsInvariant := by
  rintro s t ⟨hram, hsp, -, hslots, hzero⟩ h
  obtain ⟨w, u, -, hw, hexec, rfl⟩ := step_next h
  obtain ⟨hpc, -⟩ := fetchWord_eq_ok.mp hw
  have hslot := slot_of_exec hexec
  have hram' : u.ram.wf := ram_wf_of_exec (s := s.beginStep) hram hexec
  have hsp' : u.sp.toNat ≤ 15 := sp_le_of_exec (s := s.beginStep) hsp hexec
  refine ⟨hram', hsp', ?pc, fun k => ?slots, ?zero⟩
  case pc =>
    rw [State.pc_tick, nextPcTable _ _ _ s.pc rfl hexec]
    exact pcAfter_le hpc hslots _
  case slots =>
    obtain hk | ⟨-, hk⟩ := hslot k
    · exact (congrArg BitVec.toNat hk).trans_le (hslots k)
    · refine (congrArg BitVec.toNat hk).trans_le ?_
      rw [State.pc_beginStep]; bv_omega
  case zero =>
    obtain hk | ⟨hne, -⟩ := hslot 0
    · exact hk.trans hzero
    · exact absurd rfl hne

end Sys2Proof.Machine
end

section
/-! PROOF. The register, index, key and timer instructions that cannot be cut short (spec/40_alu.md, spec/43_keypad_timers.md,
spec/44_index_memory.md), and the written-out words of R90. -/

namespace Sys2Proof.Machine

variable {i : Instr} {s : State}

/-- Settles O1, by evaluation of the decoder on ten fixed words. -/
theorem writtenWordsDecode : Obligations.WrittenWordsDecode := by
  unfold Obligations.WrittenWordsDecode
  decide

/-! ### One register write -/

/-- An instruction that is one register write leaves the value there and every other register as it was (R10). -/
theorem exec_setReg {X : Reg} {v : Byte} {P : Byte → Prop} (hexec : exec i s = .next (s.setReg X v)) (hv : P v) :
    ∃ t, exec i s = .next t ∧ P (t.reg X) ∧ (∀ q, q ≠ X → t.reg q = s.reg q) ∧ SameButRegs s t := by
  refine ⟨_, hexec, ?value, fun q hq => ?others, sameButRegs_setReg X v⟩
  case value => rwa [State.reg_setReg, if_pos rfl]
  case others => rw [State.reg_setReg, if_neg hq]

/-- Settles O9: byte addition is modulo 256. -/
theorem immediateLoadAndAdd : Obligations.ImmediateLoadAndAdd := fun s X KK =>
  ⟨exec_setReg (P := (· = KK)) rfl rfl,
    exec_setReg (P := fun v => v.toNat = ((s.reg X).toNat + KK.toNat) % 256) rfl (BitVec.toNat_add ..)⟩

/-- Settles O11: each bit of a bitwise operation is the operation on the bits. -/
theorem logicBitwise : Obligations.LogicBitwise := fun s X Y =>
  ⟨exec_setReg (P := fun v => ∀ k < 8, v.getLsbD k = ((s.reg X).getLsbD k || (s.reg Y).getLsbD k)) rfl
      fun _ _ => BitVec.getLsbD_or,
    exec_setReg (P := fun v => ∀ k < 8, v.getLsbD k = ((s.reg X).getLsbD k && (s.reg Y).getLsbD k)) rfl
      fun _ _ => BitVec.getLsbD_and,
    exec_setReg (P := fun v => ∀ k < 8, v.getLsbD k = ((s.reg X).getLsbD k ^^ (s.reg Y).getLsbD k)) rfl
      fun _ _ => BitVec.getLsbD_xor⟩

/-- Settles O18: a mask leaves no bit outside itself, whatever the drawn byte is. -/
theorem randomMasked : Obligations.RandomMasked := by
  intro s X KK
  have hvalue : ((s.setReg X (s.rndInput &&& KK)).countDraw).reg X = s.rndInput &&& KK := by simp
  refine ⟨_, rfl, hvalue, fun k hk => ?masked, fun q hq => ?others, rfl⟩
  case masked => rw [hvalue, BitVec.getLsbD_and, hk, Bool.and_false]
  case others => rw [State.reg_countDraw, State.reg_setReg, if_neg hq]

/-! ### The flags register as destination -/

/-- An instruction that makes the two writes with the flags register as destination leaves the one FLAG_WRITE_LAST names
(R113). -/
theorem exec_resultAndFlag_fifteen {v : Byte} {b : Bool} {flag result : Nat}
    (hexec : exec i s = .next (s.setResultAndFlag 15 v b)) (hflag : b.toNat = flag) (hresult : v.toNat = result) :
    ∃ t, exec i s = .next t ∧ (t.reg 15).toNat = (if Config.flagWriteLast then flag else result) ∧
      (∀ q, q ≠ 15 → t.reg q = s.reg q) ∧ SameButRegs s t := by
  refine ⟨_, hexec, ?written, fun q hq => ?others, sameButRegs_setResultAndFlag 15 v b⟩
  case written =>
    rw [State.reg_setResultAndFlag, if_pos rfl, if_pos rfl, apply_ite BitVec.toNat, toNat_flagByte, hflag, hresult]
  case others => rw [State.reg_setResultAndFlag, if_neg hq, if_neg hq]

theorem toNat_decide (p : Prop) [Decidable p] : (decide p).toNat = if p then 1 else 0 := by
  by_cases hp : p <;> simp [hp]

theorem toNat_sub_byte (a b : Byte) : (a - b).toNat = (a.toNat + 256 - b.toNat) % 256 := by
  rw [BitVec.toNat_sub]
  omega

/-- Settles O17, by the arithmetic of each of the five results and flags. -/
theorem flagRegisterAsDestination : Obligations.FlagRegisterAsDestination := by
  intro s Y a b i flag result h
  obtain ⟨rfl, rfl, rfl⟩ | ⟨rfl, rfl, rfl⟩ | ⟨rfl, rfl, rfl⟩ | ⟨rfl, rfl, rfl⟩ | ⟨rfl, rfl, rfl⟩ := h
  case inl => exact exec_resultAndFlag_fifteen rfl (toNat_decide _) (BitVec.toNat_add ..)
  case inr.inl => exact exec_resultAndFlag_fifteen rfl (toNat_decide _) (toNat_sub_byte ..)
  case inr.inr.inl => exact exec_resultAndFlag_fifteen rfl (toNat_decide _) (toNat_sub_byte ..)
  case inr.inr.inr.inl => exact exec_resultAndFlag_fifteen rfl (toNat_bitOutRight _) (toNat_shiftRight_one _)
  case inr.inr.inr.inr => exact exec_resultAndFlag_fifteen rfl (toNat_bitOutLeft _) (toNat_shiftLeft_one _)

/-! ### Keys and timers -/

/-- SKP and SKNP of an existing key test it (R150, R151). -/
theorem execSkp_of_le {X : Reg} (h : (s.reg X).toNat ≤ 15) :
    execSkp X s = .next (s.skipIf (s.keyDown (s.reg X).toNat)) :=
  if_neg (Nat.not_lt_of_le h)

theorem execSknp_of_le {X : Reg} (h : (s.reg X).toNat ≤ 15) :
    execSknp X s = .next (s.skipIf (!s.keyDown (s.reg X).toNat)) :=
  if_neg (Nat.not_lt_of_le h)

/-- A value that is no key index is the error's information (R186). -/
theorem execSkp_of_lt {X : Reg} (h : 15 < (s.reg X).toNat) :
    execSkp X s = .fault (.keypadIndexOutOfRange (s.reg X).toNat) :=
  if_pos h

theorem execSknp_of_lt {X : Reg} (h : 15 < (s.reg X).toNat) :
    execSknp X s = .fault (.keypadIndexOutOfRange (s.reg X).toNat) :=
  if_pos h

/-- Settles O34, by whether the register holds a key index. -/
theorem keySkips : Obligations.KeySkips := by
  refine fun s X => ⟨fun h => ⟨?skp, ?sknp⟩, fun h => ⟨execSkp_of_lt h, execSknp_of_lt h⟩⟩
  case skp => exact (execSkp_of_le h).trans (congrArg _ (skipIf_eq_ite Iff.rfl))
  case sknp => exact (execSknp_of_le h).trans (congrArg _ (skipIf_eq_ite (iff_of_eq (Bool.not_eq_true' _))))

/-- Settles O36: one register write, and two writes of a timer. -/
theorem timerMoves : Obligations.TimerMoves := fun s _ => ⟨exec_setReg (P := (· = s.dt)) rfl rfl, rfl, rfl⟩

/-! ### The index register -/

/-- Settles O38: the address field fits `I`, and the sum is reduced modulo its width. -/
theorem indexLoadAndAdd : Obligations.IndexLoadAndAdd := by
  refine fun s NNN X => ⟨⟨_, rfl, toNat_zext16 NNN, rfl⟩, _, rfl, ?sum, rfl⟩
  case sum => rw [State.I_setI, BitVec.toNat_add, toNat_zextReg]

/-- Settles O39: even the last address fits 16 bits, since the font lies below 0x200. -/
theorem indexAtGlyph : Obligations.IndexAtGlyph := by
  refine fun s X => ⟨_, rfl, Nat.mod_eq_of_lt ?fits, rfl⟩
  case fits =>
    have hfont := fontAddr_le
    have hbyte := (s.reg X).isLt
    simp only [Config.glyphBytes]
    omega

end Sys2Proof.Machine
end

section
/-! PROOF. Registers dumped to RAM and loaded from it (spec/44_index_memory.md R169, R170), and a stored byte as the next
step fetches it (spec/20_memory.md R62). -/

namespace Sys2Proof.Machine

variable {s t : State} {X : Reg}

/-! ### The dump and the load -/

/-- LDXR with room for its bytes is one change of RAM, which holds the registers from `I` up and is otherwise as before
(R169). -/
theorem execLdxr_of_le (hm : s.ram.wf) (hI : s.I.toNat + X.val ≤ 4095) :
    ∃ m, execLdxr X s = .next (s.setRam m) ∧ (∀ q, q ≤ X → m.read (s.I.toNat + q.val) = s.reg q) ∧
      ∀ a, a < s.I.toNat ∨ s.I.toNat + X.val < a → m.read a = s.ram.read a := by
  have hlen := length_regsThrough s X
  obtain ⟨m, hwrite, -, hread⟩ := writeBytes_ok (s.regsThrough X) s.ram (s.effAddr 0) hm
    (by rw [hlen, State.effAddr]; omega)
  refine ⟨m, by simp [execLdxr, hwrite], fun q hq => ?register, fun a ha => ?other⟩
  case register =>
    have hq' : q.val ≤ X.val := hq
    rw [hread, hlen, State.effAddr, if_pos (by omega), Nat.add_zero, Nat.add_sub_cancel_left,
      getElem?_regsThrough s hq, Option.getD_some]
  case other => rw [hread, hlen, State.effAddr, if_neg (by omega)]

/-- A completed LDXR had that room (R182). -/
theorem execLdxr_next_le (h : execLdxr X s = .next t) : s.I.toNat + X.val ≤ 4095 := by
  by_contra hlt
  rw [execLdxr_of_lt (by omega)] at h
  cases h

/-- LDRX with its bytes in RAM loads them into `x[0]` to `x[X]` (R170). -/
theorem execLdrx_of_le (hI : s.I.toNat + X.val ≤ 4095) :
    ∃ t, execLdrx X s = .next t ∧ (∀ q, q ≤ X → t.reg q = s.ram.read (s.I.toNat + q.val)) ∧
      (∀ q, X < q → t.reg q = s.reg q) ∧ SameButRegs s t := by
  have hread := readBytes_ok (X.val + 1) s.ram (s.effAddr 0) (by rw [State.effAddr]; omega)
  have hexec : execLdrx X s = .next (s.setRegs ((List.range (X.val + 1)).map fun k => s.ram.read (s.effAddr 0 + k))) := by
    simp only [execLdrx, hread]
  refine ⟨_, hexec, fun q hq => ?loaded, fun q hq => ?above, rfl⟩
  case loaded =>
    have hq' : q.val < X.val + 1 := Nat.lt_succ_of_le hq
    simp [List.getElem?_range hq', State.effAddr]
  case above =>
    have hq' : X.val + 1 ≤ q.val := hq
    rw [State.reg_setRegs, List.getElem?_eq_none (by simpa using hq'), Option.getD_none]

/-- Settles O41, by `execLdxr_of_le`. -/
theorem registersDumped : Obligations.RegistersDumped := by
  intro s X hm hI
  obtain ⟨m, hexec, hregs, hframe⟩ := execLdxr_of_le hm hI
  exact ⟨_, hexec, hregs, hframe, rfl⟩

/-- Settles O42, by `execLdrx_of_le`. -/
theorem registersLoaded : Obligations.RegistersLoaded :=
  fun _ _ => execLdrx_of_le

/-- Settles O43: the load reads each byte of the dump. -/
theorem dumpThenLoadRestores : Obligations.DumpThenLoadRestores := by
  intro s t u X hm h hram hindex
  have hI := execLdxr_next_le h
  obtain ⟨m, hexec, hregs, -⟩ := execLdxr_of_le hm hI
  obtain rfl := Host.Outcome.next.inj (hexec.symm.trans h)
  have hindex : u.I = s.I := hindex
  obtain ⟨v, hload, hloaded, habove, -⟩ := execLdrx_of_le (s := u) (X := X) (hindex ▸ hI)
  refine ⟨v, hload, fun q hq => ?restored, habove⟩
  case restored => rw [hloaded q hq, hindex, hram, State.ram_setRam, hregs q hq]

/-! ### Stored bytes and the fetch -/

/-- A completed LDB had room for its digits (R168, R182). -/
theorem execLdb_next_le (h : execLdb X s = .next t) : s.I.toNat ≤ 4093 := by
  by_contra hlt
  rw [execLdb_of_lt (by omega)] at h
  cases h

/-- The digits as numbers: each fits a byte (R168). -/
theorem getElem?_bcdDigits (v : Byte) (k : Nat) :
    [v.toNat / 100, v.toNat / 10 % 10, v.toNat % 10][k]? = ((bcdDigits v)[k]?).map BitVec.toNat := by
  have hv := v.isLt
  have hdigits : [v.toNat / 100, v.toNat / 10 % 10, v.toNat % 10] = (bcdDigits v).map BitVec.toNat := by
    have hhundreds : v.toNat / 100 < 2 ^ 8 := by omega
    have htens : v.toNat / 10 % 10 < 2 ^ 8 := by omega
    have hones : v.toNat % 10 < 2 ^ 8 := by omega
    simp only [bcdDigits, List.map_cons, List.map_nil, BitVec.toNat_ofNat, Nat.mod_eq_of_lt hhundreds,
      Nat.mod_eq_of_lt htens, Nat.mod_eq_of_lt hones]
  rw [hdigits, List.getElem?_map]

/-- Each half of a fetched word is the byte RAM holds there (R53). -/
theorem bytes_of_fetchWord {w : Word} (h : fetchWord s = .ok w) :
    highByte w = s.ram.read s.pc.toNat ∧ lowByte w = s.ram.read (s.pc.toNat + 1) := by
  obtain ⟨-, rfl⟩ := fetchWord_eq_ok.mp h
  exact ⟨highByte_append .., lowByte_append ..⟩

/-- Settles O44: the halves of the fetched word are bytes of the RAM the instruction left, which holds what it stored and is
otherwise as before. -/
theorem storeSeenByFetch : Obligations.StoreSeenByFetch := by
  intro s t v w hm hv h hw
  obtain ⟨v', u, -, hv', hexec, rfl⟩ := step_next h
  obtain rfl : v' = v := Except.ok.inj (hv'.symm.trans hv)
  obtain ⟨hhigh, hlow⟩ := bytes_of_fetchWord hw
  rw [hhigh, hlow]
  refine ⟨fun X hX q hq => ?dump, fun X hX k d hd => ?digits, ?high, ?low⟩
  case dump =>
    rw [hX] at hexec
    obtain ⟨m, hstore, hregs, -⟩ := execLdxr_of_le (s := s.beginStep) hm (execLdxr_next_le hexec)
    obtain rfl := Host.Outcome.next.inj (hstore.symm.trans hexec)
    exact ⟨fun ha => ha ▸ hregs q hq, fun ha => ha ▸ hregs q hq⟩
  case digits =>
    rw [hX] at hexec
    obtain ⟨m, hstore, hdigits, -⟩ := execLdb_of_le (s := s.beginStep) hm (execLdb_next_le hexec)
    obtain rfl := Host.Outcome.next.inj (hstore.symm.trans hexec)
    have hk : k < 3 := (List.getElem?_eq_some_iff.mp hd).1
    rw [getElem?_bcdDigits, Option.map_eq_some_iff] at hd
    obtain ⟨b, hb, rfl⟩ := hd
    have hread : m.read (s.I.toNat + k) = b := (hdigits k hk).trans (by rw [State.reg_beginStep, hb]; rfl)
    exact ⟨fun ha => by rw [ha]; exact congrArg _ hread, fun ha => by rw [ha]; exact congrArg _ hread⟩
  case high => exact (ramFrame _ s.beginStep u hexec).2 hm _
  case low => exact (ramFrame _ s.beginStep u hexec).2 hm _

end Sys2Proof.Machine
end

section
/-! PROOF. The display instructions (spec/42_display.md): a DRW that fits as one XOR of the sprite bits, the errors of one that
does not, CLS, and from these the obligations. -/

namespace Sys2Proof.Machine

variable {i : Instr} {s t : State} {X Y : Reg} {N : Nibble}

/-! ### The bits of a sprite -/

/-- A set bit lies over a pixel when some row and column of the sprite place it there (R141, R145). -/
theorem drawnBit_eq_true_iff {px py : Nat} : drawnBit X Y N s px py = true ↔
    ∃ r < N.toNat, ∃ c < 8, px = s.drawX X + c ∧ py = s.drawY Y + r ∧
      spriteBit (s.ram.read (s.effAddr 0 + r)) c = true := by
  simp only [drawnBit, Bool.and_eq_true, decide_eq_true_eq]
  constructor
  · rintro ⟨⟨hx, hx', hy, hy'⟩, hbit⟩
    exact ⟨py - s.drawY Y, by unfold State.drawY; omega, px - s.drawX X, by unfold State.drawX; omega,
      (Nat.add_sub_of_le hx).symm, (Nat.add_sub_of_le hy).symm, hbit⟩
  · rintro ⟨r, hr, c, hc, rfl, rfl, hbit⟩
    refine ⟨⟨Nat.le_add_right .., Nat.add_lt_add_left hc _, Nat.le_add_right .., Nat.add_lt_add_left hr _⟩, ?_⟩
    simpa [State.drawX, State.drawY, State.effAddr, spriteBit] using hbit

theorem drawnBit_zero (px py : Nat) : drawnBit X Y 0 s px py = false := by
  rw [Bool.eq_false_iff, Ne, drawnBit_eq_true_iff]
  rintro ⟨r, hr, -⟩
  exact absurd hr (Nat.not_lt_zero r)

/-- The sprite bits over one pixel of the screen, as the rows and columns of the blit meet them. -/
theorem any_spriteBit_eq_drawnBit {px py : Nat} (hx : s.drawX X ≤ 56) (hpx : px < 64) :
    ((List.range N.toNat).any fun r => (List.range 8).any fun c =>
      py * 64 + px == (s.drawY Y + r) * 64 + (s.drawX X + c) && spriteBit (s.ram.read (s.effAddr 0 + r)) c) =
    drawnBit X Y N s px py := by
  rw [Bool.eq_iff_iff, drawnBit_eq_true_iff]
  simp only [List.any_eq_true, List.mem_range, Bool.and_eq_true, beq_iff_eq]
  refine exists_congr fun r => and_congr_right fun _ => exists_congr fun c => and_congr_right fun hc => ?_
  rw [← and_assoc]
  exact and_congr_left fun _ => by omega

/-- The collisions the rows and columns of the blit meet, as pixels of the screen. -/
theorem any_spriteBit_collision_iff (hx : s.drawX X ≤ 56) (hy : s.drawY Y + N.toNat ≤ 32) :
    ((List.range N.toNat).any fun r => (List.range 8).any fun c =>
      spriteBit (s.ram.read (s.effAddr 0 + r)) c && fbGet s.fb ((s.drawY Y + r) * 64 + (s.drawX X + c))) = true ↔
    ∃ px < 64, ∃ py < 32, s.pixel px py = true ∧ drawnBit X Y N s px py = true := by
  simp only [List.any_eq_true, List.mem_range, Bool.and_eq_true]
  constructor
  · rintro ⟨r, hr, c, hc, hbit, hon⟩
    exact ⟨_, by omega, _, by omega, hon, drawnBit_eq_true_iff.mpr ⟨r, hr, c, hc, rfl, rfl, hbit⟩⟩
  · rintro ⟨px, -, py, -, hon, hdrawn⟩
    obtain ⟨r, hr, c, hc, rfl, rfl, hbit⟩ := drawnBit_eq_true_iff.mp hdrawn
    exact ⟨r, hr, c, hc, hbit, hon⟩

/-! ### A DRW that fits -/

/-- A DRW of no rows draws nothing (R144). -/
theorem execDrw_zero (X Y : Reg) (s : State) : execDrw X Y 0 s = .next ((s.setReg 15 (flagByte false)).showFb s.fb) := rfl

/-- A DRW that fits completes: every pixel is XORed with the sprite bit over it, and the flag says whether a set bit met an on
pixel (R141, R142). -/
theorem execDrw_of_drawFits (h : drawFits X Y N s) :
    ∃ g hit, execDrw X Y N s = .next ((s.setReg 15 (flagByte hit)).showFb g) ∧
      (∀ px < 64, ∀ py < 32, fbGet g (py * 64 + px) = (s.pixel px py ^^ drawnBit X Y N s px py)) ∧
      (hit = true ↔ ∃ px < 64, ∃ py < 32, s.pixel px py = true ∧ drawnBit X Y N s px py = true) := by
  obtain rfl | ⟨hx, hy, hI⟩ := h
  · refine ⟨s.fb, false, execDrw_zero X Y s, fun px _ py _ => ?_, nofun, ?_⟩
    · rw [drawnBit_zero, Bool.xor_false]; rfl
    · rintro ⟨px, -, py, -, -, hdrawn⟩
      exact absurd hdrawn (by rw [drawnBit_zero]; decide)
  have hx : s.drawX X ≤ 56 := hx
  have hy : s.drawY Y + N.toNat ≤ 32 := hy
  have hI : s.effAddr 0 + N.toNat ≤ 4096 := hI
  obtain ⟨d, hd, hfb, hhit⟩ := blitRows_ok s.ram (s.effAddr 0) (s.drawX X) (s.drawY Y) (List.range N.toNat)
    { fb := s.fb, hit := false } hx (fun r hr => by have := List.mem_range.mp hr; omega)
    (fun r hr => by have := List.mem_range.mp hr; omega) List.nodup_range
  refine ⟨d.fb, d.hit, by simp [execDrw, hd], fun px hpx py _ => ?pixel, ?hit⟩
  case pixel => rw [hfb, any_spriteBit_eq_drawnBit hx hpx]; rfl
  case hit => rw [hhit, Bool.false_or, any_spriteBit_collision_iff hx hy]

/-! ### A DRW that does not fit -/

/-- An error in the columns of a first row in RAM is the error of the rows (R146). -/
theorem blitRows_cons_error_cols {m : Memory} {base x0 y0 r : Nat} (rs : List Nat) {d : Blit} {e : Fault}
    (hr : base + r ≤ 4095) (hcols : blitCols x0 (y0 + r) (m.read (base + r)) (List.range 8) d = .error e) :
    blitRows m base x0 y0 (r :: rs) d = .error e := by
  rw [blitRows, readByte_ok m hr]
  simp only [hcols]

/-- DRW with a row to draw and a first column beyond 56 raises at column 64 of its first row (R142, R146). -/
theorem execDrw_of_x_gt (hN : N ≠ 0) (hx : 56 < (s.reg X).toNat % 64) (hI : s.I.toNat ≤ 4095) :
    execDrw X Y N s = .fault (.framebufferOutOfRange 64 ((s.reg Y).toNat % 32)) := by
  obtain ⟨n, hn⟩ : ∃ n, N.toNat = n + 1 := Nat.exists_eq_succ_of_ne_zero (BitVec.toNat_ne_iff_ne.mpr hN)
  apply execDrw_of_blitRows_error
  have hx : 56 < s.drawX X := hx
  have hx' : s.drawX X < 64 := Nat.mod_lt _ (by decide)
  have hy : s.drawY Y < 32 := Nat.mod_lt _ (by decide)
  have hcols := blitCols_error_right (s.drawX X) (s.drawY Y + 0) (s.ram.read (s.effAddr 0 + 0)) (List.range 8)
    { fb := s.fb, hit := false } 0 hy (by simp only [List.length_range]; omega) (by decide) (by decide) hx'.le
  rw [hn, List.range_eq_range', List.range'_succ]
  exact blitRows_cons_error_cols _ hI hcols

/-- Rows `r` to `r + n - 1` that run past the bottom edge, with every row up to the edge in RAM, raise at row 32 (R142, R146). -/
theorem blitRows_range'_error_bottom (m : Memory) {base x0 y0 r n : Nat} (d : Blit) (hx : x0 ≤ 56)
    (hbase : base + (32 - y0) ≤ 4095) (hr : y0 + r ≤ 32) (hn : 32 < y0 + r + n) :
    blitRows m base x0 y0 (List.range' r n) d = .error (.framebufferOutOfRange x0 32) := by
  induction n generalizing r d with
  | zero => omega
  | succ n ih =>
    rw [List.range'_succ]
    obtain hlast | hin := hr.eq_or_lt
    · rw [blitRows_cons_error_cols _ (by omega) (blitCols_error_bottom x0 (y0 + r) _ d hlast.ge), hlast]
    · obtain ⟨d', hrow, -, -⟩ := blitRows_cons m base x0 y0 r (List.range' (r + 1) n) d (by omega) hx hin
      rw [hrow]
      exact ih d' (by omega) (by omega)

/-- DRW past the bottom edge alone raises at its first column of row 32 (R142, R146). -/
theorem execDrw_of_rows_past_bottom (hx : (s.reg X).toNat % 64 ≤ 56) (hy : 32 < (s.reg Y).toNat % 32 + N.toNat)
    (hI : s.I.toNat + (32 - (s.reg Y).toNat % 32) ≤ 4095) :
    execDrw X Y N s = .fault (.framebufferOutOfRange ((s.reg X).toNat % 64) 32) := by
  have hy' : s.drawY Y < 32 := Nat.mod_lt _ (by decide)
  apply execDrw_of_blitRows_error
  rw [List.range_eq_range']
  exact blitRows_range'_error_bottom _ _ hx hI hy'.le hy

/-- Settles O29, one lemma per edge. -/
theorem drawPastEdgeRaises : Obligations.DrawPastEdgeRaises :=
  fun _ _ _ _ => ⟨execDrw_of_x_gt, execDrw_of_rows_past_bottom⟩

/-- What a DRW that does not fit raises: the first row or column that leaves RAM or the screen (R142, R146). -/
theorem execDrw_of_not_drawFits (h : ¬ drawFits X Y N s) :
    (∃ a, 4096 ≤ a ∧ a ≤ 65535 ∧ execDrw X Y N s = .fault (.ramOutOfRange a)) ∨
    (56 < (s.reg X).toNat % 64 ∧ execDrw X Y N s = .fault (.framebufferOutOfRange 64 ((s.reg Y).toNat % 32))) ∨
    ((s.reg X).toNat % 64 ≤ 56 ∧ execDrw X Y N s = .fault (.framebufferOutOfRange ((s.reg X).toNat % 64) 32)) := by
  rw [drawFits, not_or] at h
  obtain ⟨hN, hfit⟩ := h
  have hI := s.I.isLt
  by_cases hram : 4095 < s.I.toNat
  · exact .inl ⟨_, hram, by omega, execDrw_of_I_gt hram hN⟩
  by_cases hx : 56 < (s.reg X).toNat % 64
  · exact .inr (.inl ⟨hx, execDrw_of_x_gt hN hx (by omega)⟩)
  by_cases hrows : 4096 < s.I.toNat + N.toNat ∧ (s.reg Y).toNat % 32 + (4096 - s.I.toNat) ≤ 32
  · exact .inl ⟨4096, le_rfl, by decide, execDrw_of_rows_past_ram (by omega) hrows.1 (by omega) hrows.2⟩
  · exact .inr (.inr ⟨by omega, execDrw_of_rows_past_bottom (by omega) (by omega) (by omega)⟩)

/-- A completed DRW fitted. -/
theorem drawFits_of_execDrw (h : execDrw X Y N s = .next t) : drawFits X Y N s := by
  by_contra hfit
  obtain ⟨a, -, -, he⟩ | ⟨-, he⟩ | ⟨-, he⟩ := execDrw_of_not_drawFits hfit
  all_goals rw [h] at he; cases he

/-! ### The obligations -/

theorem flagByte_eq_one_iff {b : Bool} : flagByte b = 1 ↔ b = true := by
  cases b <;> decide

theorem flagByte_eq_zero_or_one (b : Bool) : flagByte b = 0 ∨ flagByte b = 1 := by
  cases b
  · exact .inl rfl
  · exact .inr rfl

/-- An XOR turns a pixel from on to off exactly when its bit is set and it was on. -/
theorem on_and_xor_off_iff {p b : Bool} : (p = true ∧ (p ^^ b) = false) ↔ (p = true ∧ b = true) := by
  cases p <;> cases b <;> decide

/-- It turns a pixel on that was off exactly when its bit is set and it was off. -/
theorem xor_on_and_off_iff {p b : Bool} : ((p ^^ b) = true ∧ p = false) ↔ (p = false ∧ b = true) := by
  cases p <;> cases b <;> decide

/-- Settles O28, by whether the DRW fits. -/
theorem drawXorsSprite : Obligations.DrawXorsSprite := by
  refine fun s X Y N => ⟨fun h => ?fits, fun h => ?raises⟩
  case fits =>
    obtain ⟨g, hit, hexec, hpixel, hhit⟩ := execDrw_of_drawFits h
    generalize ht : (s.setReg 15 (flagByte hit)).showFb g = t at hexec
    have hpixel : ∀ px < 64, ∀ py < 32, t.pixel px py = (s.pixel px py ^^ drawnBit X Y N s px py) := ht ▸ hpixel
    have hflag : t.reg 15 = flagByte hit := by simp [← ht]
    refine ⟨t, hexec, hpixel, hflag ▸ flagByte_eq_zero_or_one hit, ?collision, fun q hq => ?others, ht ▸ rfl⟩
    case collision =>
      rw [hflag, flagByte_eq_one_iff, hhit]
      refine exists_congr fun px => and_congr_right fun hpx => exists_congr fun py => and_congr_right fun hpy => ?_
      rw [hpixel px hpx py hpy, on_and_xor_off_iff]
    case others => simp [← ht, hq]
  case raises =>
    obtain ⟨a, -, -, he⟩ | ⟨-, he⟩ | ⟨-, he⟩ := execDrw_of_not_drawFits h
    all_goals exact ⟨_, he⟩

/-- Settles O30, by `execDrw_zero`. -/
theorem drawNoRows : Obligations.DrawNoRows := by
  refine fun s X Y => ⟨_, execDrw_zero X Y s, ?flag, fun q hq => ?others, rfl⟩
  case flag => simp [flagByte]
  case others => simp [hq]

/-- The sprite lies at the same place on two states that agree on RAM, `I` and the coordinates. -/
theorem drawnBit_congr (hram : t.ram = s.ram) (hI : t.I = s.I) (hx : (t.reg X).toNat % 64 = (s.reg X).toNat % 64)
    (hy : (t.reg Y).toNat % 32 = (s.reg Y).toNat % 32) (px py : Nat) :
    drawnBit X Y N t px py = drawnBit X Y N s px py := by
  simp only [drawnBit, hram, hI, hx, hy]

/-- Settles O31: the second draw XORs the same bits again, so it collides where the first turned an off pixel on. -/
theorem drawTwiceCancels : Obligations.DrawTwiceCancels := by
  intro s t u X Y N hs ht hX hY
  obtain ⟨t', hs', hfirst, -, -, hregs, hsame⟩ := (drawXorsSprite s X Y N).1 (drawFits_of_execDrw hs)
  obtain rfl := Host.Outcome.next.inj (hs'.symm.trans hs)
  obtain ⟨u', ht', hsecond, -, hcollision, -, -⟩ := (drawXorsSprite t' X Y N).1 (drawFits_of_execDrw ht)
  obtain rfl := Host.Outcome.next.inj (ht'.symm.trans ht)
  have hplace (px py : Nat) : drawnBit X Y N t' px py = drawnBit X Y N s px py :=
    drawnBit_congr (by rw [hsame]) (by rw [hsame]) (hX.elim (fun h => by rw [hregs X h]) id)
      (hY.elim (fun h => by rw [hregs Y h]) id) px py
  have hback : ∀ px < 64, ∀ py < 32, u'.pixel px py = s.pixel px py := fun px hpx py hpy => by
    rw [hsecond px hpx py hpy, hfirst px hpx py hpy, hplace, Bool.xor_assoc, Bool.xor_self, Bool.xor_false]
  have hsecondFlag : u'.reg 15 = 1 ↔ ∃ px < 64, ∃ py < 32, s.pixel px py = false ∧ drawnBit X Y N s px py = true := by
    rw [hcollision]
    refine exists_congr fun px => and_congr_right fun hpx => exists_congr fun py => and_congr_right fun hpy => ?_
    rw [hback px hpx py hpy, hfirst px hpx py hpy]
    exact xor_on_and_off_iff
  refine ⟨hback, hsecondFlag, fun hoff => hsecondFlag.trans ?fromOff⟩
  case fromOff =>
    refine exists_congr fun px => and_congr_right fun hpx => exists_congr fun py => and_congr_right fun hpy => ?_
    exact and_iff_right (hoff px hpx py hpy)

/-- Settles O27: the cleared framebuffer is off everywhere. -/
theorem clearScreen : Obligations.ClearScreen :=
  fun _ => ⟨_, rfl, fun k _ => fbGet_fbClear k, rfl⟩

/-- A framebuffer that differs in some cell is reported as changed (R37). -/
theorem fbChanged_showFb_of_ne {g : Vector Bool 2048} {k : Nat} (h : fbGet g k ≠ fbGet s.fb k) :
    (s.showFb g).fbChanged = true := by
  rw [State.fbChanged_showFb, if_neg]
  rintro rfl
  exact h rfl

/-- Settles O32: only CLS and DRW write the output, and they report a changed framebuffer. -/
theorem framebufferChangedFlag : Obligations.FramebufferChangedFlag := by
  intro i s t hcleared h
  refine ⟨fun hi => ?untouched, ?reported⟩
  case untouched =>
    obtain ⟨-, -, -, -, hfb, -⟩ := specialStateFrame i s t h
    exact (hfb hi).2.trans hcleared
  case reported =>
    rintro (rfl | ⟨X, Y, N, rfl⟩) ⟨k, -, hk⟩
    · obtain rfl := Host.Outcome.next.inj h
      exact fbChanged_showFb_of_ne hk
    · obtain ⟨d, -, rfl⟩ := execDrw_next h
      exact fbChanged_showFb_of_ne hk

end Sys2Proof.Machine
end

section
/-! PROOF. Which error which instruction raises (spec/60_exceptions.md R181 to R186): for each instruction that can raise, what
its fault carries, and from these the obligation. -/

namespace Sys2Proof.Machine

variable {i : Instr} {s : State} {e : Fault} {X Y : Reg} {N : Nibble}

/-- An execution guarded by a check raises the error of the check, or what the rest raises (R12). -/
theorem ite_raise_eq_fault_iff {c : Prop} [Decidable c] {e' : Fault} {r : Result} :
    (if c then raise e' else r) = .fault e ↔ c ∧ e' = e ∨ ¬ c ∧ r = .fault e := by
  by_cases hc : c <;> simp [hc, raise]

theorem execCall_fault {NNN : Addr12} (h : execCall NNN s = .fault e) :
    15 ≤ s.sp.toNat ∧ e = .stackOverflow s.sp.toNat := by
  obtain ⟨hfull, rfl⟩ | ⟨-, hnext⟩ := ite_raise_eq_fault_iff.mp h
  · exact ⟨hfull, rfl⟩
  · cases hnext

theorem execRet_fault (h : execRet s = .fault e) :
    (s.sp.toNat = 0 ∧ e = .stackUnderflow s.sp.toNat) ∨ (15 < s.sp.toNat ∧ e = .stackOverflow s.sp.toNat) := by
  obtain ⟨hempty, rfl⟩ | ⟨-, h⟩ := ite_raise_eq_fault_iff.mp h
  · exact .inl ⟨hempty, rfl⟩
  obtain ⟨hbeyond, rfl⟩ | ⟨-, hnext⟩ := ite_raise_eq_fault_iff.mp h
  · exact .inr ⟨hbeyond, rfl⟩
  · cases hnext

theorem execSkp_fault (h : execSkp X s = .fault e) : 15 < (s.reg X).toNat ∧ e = .keypadIndexOutOfRange (s.reg X).toNat := by
  obtain ⟨hkey, rfl⟩ | ⟨-, hnext⟩ := ite_raise_eq_fault_iff.mp h
  · exact ⟨hkey, rfl⟩
  · cases hnext

theorem execSknp_fault (h : execSknp X s = .fault e) :
    15 < (s.reg X).toNat ∧ e = .keypadIndexOutOfRange (s.reg X).toNat := by
  obtain ⟨hkey, rfl⟩ | ⟨-, hnext⟩ := ite_raise_eq_fault_iff.mp h
  · exact ⟨hkey, rfl⟩
  · cases hnext

/-- LDK never raises (R152). -/
theorem execLdk_ne_fault : execLdk X s ≠ .fault e := by
  unfold execLdk
  split <;> nofun

/-- A store whose last byte is in RAM completes, whatever form RAM has (R51, R55). -/
theorem exists_writeBytes_eq_ok (bs : List Byte) (m : Memory) {a : Nat} (h : a + bs.length ≤ 4096) :
    ∃ m', writeBytes m a bs = .ok m' := by
  induction bs generalizing m a with
  | nil => exact ⟨m, rfl⟩
  | cons b bs ih =>
    rw [List.length_cons] at h
    obtain ⟨m', hm'⟩ := ih (m.write a b) (a := a + 1) (by omega)
    exact ⟨m', by rw [writeBytes, writeByte_ok m b (by omega)]; exact hm'⟩

/-- A store raises at the first address beyond RAM (R182). -/
theorem eq_of_writeBytes_error {bs : List Byte} {m : Memory} {a : Nat} (hne : bs ≠ [])
    (h : writeBytes m a bs = .error e) : e = .ramOutOfRange (max a 4096) := by
  by_cases hle : a + bs.length ≤ 4096
  · obtain ⟨m', hm'⟩ := exists_writeBytes_eq_ok bs m hle
    cases hm'.symm.trans h
  · exact (Except.error.inj ((writeBytes_error bs m a (by omega) hne).symm.trans h)).symm

theorem execLdb_fault (h : execLdb X s = .fault e) : e = .ramOutOfRange (max s.I.toNat 4096) := by
  unfold execLdb at h
  split at h
  next e' he => exact Host.Outcome.fault.inj h ▸ eq_of_writeBytes_error (List.cons_ne_nil _ _) he
  next => cases h

theorem execLdxr_fault (h : execLdxr X s = .fault e) : e = .ramOutOfRange (max s.I.toNat 4096) := by
  unfold execLdxr at h
  split at h
  next e' he =>
    have hne := List.ne_nil_of_length_eq_add_one (length_regsThrough s X)
    exact Host.Outcome.fault.inj h ▸ eq_of_writeBytes_error hne he
  next => cases h

theorem execLdrx_fault (h : execLdrx X s = .fault e) : e = .ramOutOfRange (max s.I.toNat 4096) := by
  by_cases hI : s.I.toNat + X.val ≤ 4095
  · obtain ⟨t, ht, -⟩ := execLdrx_of_le hI
    cases ht.symm.trans h
  · exact (Host.Outcome.fault.inj ((execLdrx_of_lt (by omega)).symm.trans h)).symm

/-- A DRW that raises does not fit, and raises as such a DRW does. -/
theorem execDrw_fault (h : execDrw X Y N s = .fault e) :
    (∃ a, 4096 ≤ a ∧ a ≤ 65535 ∧ e = .ramOutOfRange a) ∨
    (56 < (s.reg X).toNat % 64 ∧ e = .framebufferOutOfRange 64 ((s.reg Y).toNat % 32)) ∨
    ((s.reg X).toNat % 64 ≤ 56 ∧ e = .framebufferOutOfRange ((s.reg X).toNat % 64) 32) := by
  have hfit : ¬ drawFits X Y N s := fun hfit => by
    obtain ⟨g, hit, hexec, -⟩ := execDrw_of_drawFits hfit
    cases hexec.symm.trans h
  have hinj {e' : Fault} (he : execDrw X Y N s = .fault e') : e = e' := Host.Outcome.fault.inj (h.symm.trans he)
  obtain ⟨a, ha, ha', he⟩ | ⟨hx, he⟩ | ⟨hx, he⟩ := execDrw_of_not_drawFits hfit
  · exact .inl ⟨a, ha, ha', hinj he⟩
  · exact .inr (.inl ⟨hx, hinj he⟩)
  · exact .inr (.inr ⟨hx, hinj he⟩)

/-- The 17-bit information holds every number below 131072 whole (R181, R44). -/
theorem toNat_ofNat_info {n : Nat} (h : n < 131072) : (BitVec.ofNat 17 n).toNat = n :=
  Nat.mod_eq_of_lt h

/-- Settles O8, by the instruction that raises; every information is below 131072. -/
theorem errorsByInstruction : Obligations.ErrorsByInstruction := by
  refine ⟨fun i s e h => ?raised, fun len => ⟨rfl, toNat_ofNat_info⟩, rfl⟩
  have hsp := s.sp.isLt
  have hI := s.I.isLt
  cases i with
  | call NNN =>
    obtain ⟨hfull, rfl⟩ := execCall_fault h
    exact ⟨rfl, hfull, .inl ⟨NNN, rfl⟩, rfl, toNat_ofNat_info (by omega)⟩
  | ret =>
    obtain ⟨hempty, rfl⟩ | ⟨hbeyond, rfl⟩ := execRet_fault h
    · exact ⟨hempty, BitVec.eq_of_toNat_eq hempty, rfl, rfl, toNat_ofNat_info (by omega)⟩
    · exact ⟨rfl, hbeyond.le, .inr ⟨rfl, hbeyond⟩, rfl, toNat_ofNat_info (by omega)⟩
  | skp X =>
    have hkey := (s.reg X).isLt
    obtain ⟨hindex, rfl⟩ := execSkp_fault h
    exact ⟨hindex, Nat.le_of_lt_succ hkey, ⟨X, rfl, .inl rfl⟩, rfl, toNat_ofNat_info (by omega)⟩
  | sknp X =>
    have hkey := (s.reg X).isLt
    obtain ⟨hindex, rfl⟩ := execSknp_fault h
    exact ⟨hindex, Nat.le_of_lt_succ hkey, ⟨X, rfl, .inr rfl⟩, rfl, toNat_ofNat_info (by omega)⟩
  | drw X Y N =>
    obtain ⟨a, ha, ha', rfl⟩ | ⟨hx, rfl⟩ | ⟨hx, rfl⟩ := execDrw_fault h
    · exact ⟨ha, by omega, .inl ⟨X, Y, N, rfl⟩, rfl, toNat_ofNat_info (by omega)⟩
    · exact ⟨X, Y, N, rfl, .inl ⟨hx, rfl, rfl⟩, rfl, toNat_ofNat_info (by omega)⟩
    · exact ⟨X, Y, N, rfl, .inr ⟨hx, rfl, rfl⟩, rfl, toNat_ofNat_info (by omega)⟩
  | ldb X =>
    obtain rfl := execLdb_fault h
    exact ⟨by omega, by omega, .inr (.inl ⟨X, rfl⟩), rfl, toNat_ofNat_info (by omega)⟩
  | ldxr X =>
    obtain rfl := execLdxr_fault h
    exact ⟨by omega, by omega, .inr (.inr (.inl ⟨X, rfl⟩)), rfl, toNat_ofNat_info (by omega)⟩
  | ldrx X =>
    obtain rfl := execLdrx_fault h
    exact ⟨by omega, by omega, .inr (.inr (.inr ⟨X, rfl⟩)), rfl, toNat_ofNat_info (by omega)⟩
  | ldk X => exact absurd h execLdk_ne_fault
  | cls | jp NNN | jpa NNN | sei X KK | snei X KK | se X Y | sne X Y | ldi X KK | addi X KK | ld X Y | or X Y | and X Y
  | xor X Y | add X Y | sub X Y | subn X Y | shr X Y | shl X Y | ldix NNN | rnd X KK | rdt X | sdt X | sst X | addix X
  | ldf X | unk w => cases h

end Sys2Proof.Machine
end

section
/-! PROOF. The host's operations (spec/10_state.md R40 to R44, spec/70_reset_and_hazards.md R210 to R214) and the state a fatal
error leaves (spec/60_exceptions.md R190): the fields of that state, what a host step answers, and from these the
obligations. -/

namespace Sys2Proof.Machine

variable {i : Instr} {s t : State} {e : Fault}

/-! ### Reset, construction and load -/

/-- A reset leaves canonical RAM, which reads outside the font as RESET_CLEARS_RAM says and inside as FONT_DATA (R211, R212). -/
theorem ram_hostReset (hm : s.ram.wf) : (hostReset s).ram.wf ∧
    (∀ k, k < 80 → (hostReset s).ram.read (fontAddr + k) = (Config.fontData[k]?).getD 0) ∧
    ∀ a, a < fontAddr ∨ fontAddr + 80 ≤ a →
      (hostReset s).ram.read a = if Config.resetClearsRam then 0 else s.ram.read a := by
  have hfont := fontAddr_le
  have hlen : Config.fontData.toList.length = 80 := Vector.length_toList
  obtain ⟨hwf, hread⟩ := Memory.load_read Config.fontData.toList s.ram fontAddr hm (by omega)
  have hram : (hostReset s).ram = if Config.resetClearsRam then [] else s.ram.load fontAddr Config.fontData.toList := rfl
  rw [hram]
  split
  · exact ⟨Memory.wf_reset, fun k => Memory.unlisted_font, fun a => Memory.unlisted_outside_font⟩
  · exact ⟨hwf, fun k => read_load_font s.ram hm, fun a ha => (hread a).trans (if_neg (by omega))⟩

/-- Settles O52: the fields a reset sets, and the font by `ram_hostReset`. -/
theorem resetOperation : Obligations.ResetOperation := by
  intro s hm
  obtain ⟨-, hfont, -⟩ := ram_hostReset hm
  exact ⟨fun r => Vector.getElem_replicate r.isLt, rfl, rfl, rfl, slot_reset, rfl, rfl, fun k _ => fbGet_fbClear k, hfont, rfl⟩

/-- Settles O53, by `ram_hostReset`. -/
theorem resetRamAndKeypad : Obligations.ResetRamAndKeypad := by
  intro s a hm _ ha
  obtain ⟨-, -, hother⟩ := ram_hostReset hm
  exact ⟨hother a ha, rfl⟩

/-- RAM of a constructed machine reads 0 everywhere, the font region too (R210). -/
theorem read_construct (a : Nat) : State.construct.ram.read a = 0 := by
  have hfont := fontAddr_le
  have hlen : (List.replicate Config.fontBytes (0 : Byte)).length = 80 := List.length_replicate
  by_cases ha : a < fontAddr ∨ fontAddr + 80 ≤ a
  · obtain ⟨-, hother⟩ := ram_construct
    exact (hother a ha).trans (Memory.unlisted_outside_font ha)
  · obtain ⟨-, hread⟩ := Memory.load_read (List.replicate Config.fontBytes 0) [] fontAddr Memory.wf_reset (by omega)
    refine (hread a).trans ?_
    rw [if_pos (by omega), List.getElem?_replicate]
    split <;> rfl

/-- Settles O54: RAM by `read_construct`, every other field by its value. -/
theorem constructionIsZero : Obligations.ConstructionIsZero := by
  refine ⟨read_construct, ram_construct.1, rfl, rfl, rfl, fun r => Vector.getElem_replicate r.isLt, slot_reset, rfl, rfl,
    fbGet_fbClear, fun k => ?keys, rfl⟩
  case keys =>
    have hkey : State.construct.key[k]? = if k < 16 then some false else none := Vector.getElem?_replicate
    rw [State.keyDown, hkey]
    split <;> rfl

/-- Settles O56: a program that fits is loaded inside RAM. -/
theorem programLoaded : Obligations.ProgramLoaded := by
  intro s bytes hm h
  obtain ⟨-, hread⟩ := Memory.load_read bytes s.ram 0x200 hm (by omega)
  rw [loadProgram_of_le h]
  refine ⟨rfl, fun k hk => ?program, fun a ha => ?other, rfl⟩
  case program => rw [State.ram_setRam, hread, if_pos (by omega), Nat.add_sub_cancel_left]
  case other => rw [State.ram_setRam, hread, if_neg (by omega)]

/-! ### The end of a failing step -/

/-- Each timer of a failing step is ticked or not (R190). -/
theorem timers_endFaulted (s : State) : (s.endFaulted.dt = s.dt ∨ s.endFaulted.dt = ticked s.dt) ∧
    (s.endFaulted.st = s.st ∨ s.endFaulted.st = ticked s.st) := by
  simp only [State.endFaulted, tickTimer_eq_ticked]
  exact ⟨(ite_eq_or_eq ..).symm, (ite_eq_or_eq ..).symm⟩

/-- After a failed fetch only `pc` may have moved (R190). -/
theorem residue_of_fetchWord_error (h : fetchWord s = .error e) :
    residue s = s.endFaulted ∨ residue s = (s.setPc (s.pc + 2)).endFaulted := by
  simp only [residue, h]
  split
  · exact .inr rfl
  · exact .inl rfl

theorem residue_of_fetchWord_ok {w : Word} (h : fetchWord s = .ok w) :
    residue s = (residueOf (decode w) s.beginStep).endFaulted := by
  simp only [residue, h]

/-- What every fatal error leaves as it was, but for the mark and the ticks (R190). -/
theorem residue_eq_endFaulted (s : State) : ∃ u : State, residue s = u.endFaulted ∧ u.I = s.I ∧ u.sp = s.sp ∧
    u.stack = s.stack ∧ u.key = s.key ∧ u.dt = s.dt ∧ u.st = s.st ∧ (s.ram.wf → u.ram.wf) := by
  cases h : fetchWord s with
  | error e =>
    obtain hr | hr := residue_of_fetchWord_error h
    · exact ⟨_, hr, rfl, rfl, rfl, rfl, rfl, rfl, id⟩
    · exact ⟨_, hr, rfl, rfl, rfl, rfl, rfl, rfl, id⟩
  | ok w =>
    obtain ⟨hI, hsp, hstack, hkey, hdt, hst, -, -⟩ := residueOf_frame (decode w) s.beginStep
    exact ⟨_, residue_of_fetchWord_ok h, hI, hsp, hstack, hkey, hdt, hst, residueOf_wf (decode w) s.beginStep⟩

/-! ### The host's step -/

theorem hostStep_of_next (h : step s = .next t) : hostStep s = .ok (t, ⟨t.fbChanged, t.unknown, none⟩) := by
  simp only [hostStep, h]

theorem hostStep_of_fault (h : step s = .fault e) :
    hostStep s = .ok (residue s, ⟨(residue s).fbChanged, (residue s).unknown, some e⟩) := by
  simp only [hostStep, h]

/-- A host step that answers has completed, or has left the residue of the error it reports. -/
theorem hostStep_ok {r : StepReport} (h : hostStep s = .ok (t, r)) :
    step s = .next t ∧ r.error = none ∨ ∃ e, step s = .fault e ∧ t = residue s ∧ r.error = some e := by
  unfold hostStep at h
  split at h
  next u hu => cases h; exact .inl ⟨hu, rfl⟩
  next e he => cases h; exact .inr ⟨e, he, rfl, rfl⟩
  next => cases h

/-- A host call of the step likewise. -/
theorem hostCall_step_ok {err : Option Fault} (h : hostCall .step s = .ok (t, err)) :
    step s = .next t ∨ t = residue s := by
  unfold hostCall at h
  dsimp only at h
  split at h
  next u r hr =>
    cases h
    obtain ⟨hnext, -⟩ | ⟨e, -, ht, -⟩ := hostStep_ok hr
    · exact .inl hnext
    · exact .inr ht
  next => cases h

/-- A host call of the load leaves the machine, or the program in RAM (R214, R215). -/
theorem hostCall_load_ok {bytes : List Byte} {err : Option Fault} (h : hostCall (.load bytes) s = .ok (t, err)) :
    t = s ∨ bytes.length ≤ 3584 ∧ t = s.setRam (s.ram.load 0x200 bytes) := by
  by_cases hfits : bytes.length ≤ 3584
  · rw [hostCall, loadProgram_of_le hfits] at h
    cases h
    exact .inr ⟨hfits, rfl⟩
  · rw [hostCall, loadProgram_of_lt (Nat.lt_of_not_le hfits)] at h
    cases h
    exact .inl rfl

/-- A completed step keeps canonical RAM, the bound of the stack pointer and the keypad. -/
theorem step_next_frame (h : step s = .next t) :
    (s.ram.wf → t.ram.wf) ∧ (s.sp.toNat ≤ 15 → t.sp.toNat ≤ 15) ∧ t.key = s.key := by
  obtain ⟨w, u, -, -, hexec, rfl⟩ := step_next h
  obtain ⟨-, -, -, -, -, -, hkey, -⟩ := specialStateFrame _ _ _ hexec
  exact ⟨fun hm => ram_wf_of_exec (s := s.beginStep) (t := u) hm hexec,
    fun hsp => sp_le_of_exec (s := s.beginStep) (t := u) hsp hexec, hkey⟩

/-- Settles O50, by the operation: the load and the reset write inside RAM, and a step completes or leaves a residue. -/
theorem hostCallsKeepRamCanonical : Obligations.HostCallsKeepRamCanonical := by
  intro op s t err hm hsp h
  cases op with
  | none | setKey k b => cases h; exact ⟨hm, hsp⟩
  | reset => cases h; exact ⟨(ram_hostReset hm).1, Nat.zero_le 15⟩
  | load bytes =>
    obtain rfl | ⟨hfits, rfl⟩ := hostCall_load_ok h
    · exact ⟨hm, hsp⟩
    · exact ⟨(Memory.load_read bytes s.ram 0x200 hm (by omega)).1, hsp⟩
  | step =>
    obtain hnext | rfl := hostCall_step_ok h
    · obtain ⟨hram, hsp', -⟩ := step_next_frame hnext
      exact ⟨hram hm, hsp' hsp⟩
    · obtain ⟨u, hu, -, husp, -, -, -, -, hram⟩ := residue_eq_endFaulted s
      rw [hu]
      exact ⟨hram hm, husp ▸ hsp⟩

/-- A key reads as what was last set, and every other key is unchanged (R41). -/
theorem keyDown_setKey (k : Fin 16) (b : Bool) (s : State) (j : Nat) :
    (setKey k b s).keyDown j = if j = k.val then b else s.keyDown j := by
  unfold State.keyDown setKey
  rw [Vector.getElem?_set]
  by_cases hj : j = k.val
  · simp [hj]
  · simp [hj, Ne.symm hj]

/-- Settles O51, by the operation for the frame, and by `keyDown_setKey`. -/
theorem onlySetKeyWritesKeypad : Obligations.OnlySetKeyWritesKeypad := by
  refine ⟨fun op s t err h hop => ?frame, fun k b s => ⟨?set, fun j hj => ?others, rfl⟩⟩
  case frame =>
    cases op with
    | none | reset => cases h; rfl
    | setKey k b => exact absurd rfl (hop k b)
    | load bytes =>
      obtain rfl | ⟨-, rfl⟩ := hostCall_load_ok h
      · rfl
      · rfl
    | step =>
      obtain hnext | rfl := hostCall_step_ok h
      · exact (step_next_frame hnext).2.2
      · obtain ⟨u, hu, -, -, -, hkey, -⟩ := residue_eq_endFaulted s
        rw [hu]
        exact hkey
  case set => rw [keyDown_setKey, if_pos rfl]
  case others => rw [keyDown_setKey, if_neg hj]

end Sys2Proof.Machine
end

section
/-! PROOF. The bounds of what a failing step leaves (spec/60_exceptions.md R190), element by element: registers, bytes and
pixels that the instruction does not write, and each of those it does; from these the obligation. -/

namespace Sys2Proof.Machine

variable {i : Instr} {s t : State} {X Y : Reg} {N : Nibble}

/-! ### What the instruction does not write -/

/-- A register the instruction does not write keeps its value. -/
theorem reg_residueOf_of_not_writesReg {q : Reg} (hq : writesReg i q = false) : (residueOf i s).reg q = s.reg q := by
  cases i with
  | drw X Y N =>
    have hne : q ≠ 15 := by simpa [writesReg] using hq
    rw [reg_residueOf_drw, if_neg hne]
  | ldrx X =>
    have hlt : ¬ q ≤ X := by simpa [writesReg] using hq
    obtain hold | ⟨hle, -⟩ := reg_residueOf_ldrx X s q
    · exact hold
    · exact absurd hle hlt
  | _ => rfl

/-- A byte the instruction does not store keeps its value. -/
theorem read_residueOf_of_not_storesTo {a : Nat} (hm : s.ram.wf) (ha : ¬ storesTo i s a) :
    (residueOf i s).ram.read a = s.ram.read a := by
  cases i with
  | ldb X =>
    rw [storesTo_ldb] at ha
    have hlen : (bcdDigits (s.reg X)).length = 3 := rfl
    exact residueStore_read_outside _ _ _ _ _ _ hm (by rw [hlen, State.effAddr]; omega)
  | ldxr X =>
    rw [storesTo_ldxr] at ha
    exact residueStore_read_outside _ _ _ _ _ _ hm (by rw [length_regsThrough, State.effAddr]; omega)
  | _ => rfl

/-- Only DRW leaves another framebuffer. -/
theorem fb_residueOf_of_not_drw (hi : ∀ X Y N, i ≠ .drw X Y N) : (residueOf i s).fb = s.fb := by
  cases i with
  | drw X Y N => exact absurd rfl (hi X Y N)
  | _ => rfl

/-! ### What it writes -/

/-- A pixel of a whole DRW is XORed with the sprite bit over it, or old where its row is beyond RAM. -/
theorem fbGet_drawnPixels_cases {px py : Nat} (hpx : px < 64) (hpy : py < 32) :
    fbGet (drawnPixels s.ram (s.effAddr 0) (s.drawX X) (s.drawY Y) N.toNat s.fb) (py * 64 + px) = s.pixel px py ∨
    fbGet (drawnPixels s.ram (s.effAddr 0) (s.drawX X) (s.drawY Y) N.toNat s.fb) (py * 64 + px) =
      (s.pixel px py ^^ drawnBit X Y N s px py) := by
  rw [fbGet_drawnPixels _ _ _ _ _ _ hpx hpy]
  by_cases hram : s.effAddr 0 + (py - s.drawY Y) < 4096
  · simp only [hram, and_true]
    exact .inr rfl
  · simp only [hram, and_false, decide_false, Bool.false_and, Bool.xor_false]
    exact .inl rfl

/-- Each pixel of a faulted DRW is old or new (R190). -/
theorem pixel_residueOf_drw {px py : Nat} (hpx : px < 64) (hpy : py < 32) :
    (residueOf (.drw X Y N) s).pixel px py = s.pixel px py ∨
    (residueOf (.drw X Y N) s).pixel px py = (s.pixel px py ^^ drawnBit X Y N s px py) := by
  rw [State.pixel, fb_residueOf_drw]
  obtain hold | hnew := fbGet_mixPixels s.draws s.fb
    (drawnPixels s.ram (s.effAddr 0) (s.drawX X) (s.drawY Y) N.toNat s.fb) (py * 64 + px)
  · exact .inl hold
  · rw [hnew]
    exact fbGet_drawnPixels_cases hpx hpy

/-- `x[15]` of a faulted DRW is old, 0, or 1 where a set bit of the sprite meets an on pixel (R141, R190). -/
theorem reg_fifteen_residueOf_drw (X Y : Reg) (N : Nibble) (s : State) :
    (residueOf (.drw X Y N) s).reg 15 = s.reg 15 ∨ (residueOf (.drw X Y N) s).reg 15 = 0 ∨
      ((residueOf (.drw X Y N) s).reg 15 = 1 ∧
        ∃ px < 64, ∃ py < 32, s.pixel px py = true ∧ drawnBit X Y N s px py = true) := by
  rw [reg_residueOf_drw, if_pos rfl]
  refine (residueFlag_cases _ _ _).imp_right (Or.imp_right (And.imp_right fun hhit => ?_))
  obtain ⟨px, hpx, py, hpy, hon, hoff⟩ := (pixelsTurnedOff_iff _ _).mp hhit
  refine ⟨px, hpx, py, hpy, hon, ?_⟩
  have hon : s.pixel px py = true := hon
  obtain hsame | hxor := fbGet_drawnPixels_cases (s := s) (X := X) (Y := Y) (N := N) hpx hpy
  · exact absurd (hoff.symm.trans (hsame.trans hon)) (by decide)
  · rw [hoff, hon] at hxor
    simpa using hxor.symm

/-- Each byte of a faulted LDXR is old, or its register where the byte is in RAM (R190). -/
theorem read_residueOf_ldxr (hm : s.ram.wf) {q : Reg} (hq : q ≤ X) :
    (residueOf (.ldxr X) s).ram.read (s.I.toNat + q.val) = s.ram.read (s.I.toNat + q.val) ∨
      (s.I.toNat + q.val ≤ 4095 ∧ (residueOf (.ldxr X) s).ram.read (s.I.toNat + q.val) = s.reg q) :=
  (residueStore_read_inside s.draws _ s.ram s.I.toNat 0 q.val (s.reg q) hm (getElem?_regsThrough s hq)).imp_right
    (And.imp_left Nat.le_of_lt_succ)

/-- Each byte of a faulted LDB is old, or its digit where the byte is in RAM (R190). -/
theorem read_residueOf_ldb (hm : s.ram.wf) {k d : Nat}
    (hd : [(s.reg X).toNat / 100, (s.reg X).toNat / 10 % 10, (s.reg X).toNat % 10][k]? = some d) :
    (residueOf (.ldb X) s).ram.read (s.I.toNat + k) = s.ram.read (s.I.toNat + k) ∨
      (s.I.toNat + k ≤ 4095 ∧ ((residueOf (.ldb X) s).ram.read (s.I.toNat + k)).toNat = d) := by
  rw [getElem?_bcdDigits, Option.map_eq_some_iff] at hd
  obtain ⟨b, hb, rfl⟩ := hd
  exact (residueStore_read_inside s.draws _ s.ram s.I.toNat 0 k b hm hb).imp_right
    (And.imp Nat.le_of_lt_succ (congrArg BitVec.toNat))

/-! ### The obligation -/

theorem pixel_endFaulted (s : State) (px py : Nat) : s.endFaulted.pixel px py = s.pixel px py := rfl

/-- What every fatal error leaves, whatever the step was (R190). -/
theorem residue_frame (s : State) : (residue s).faulted = true ∧ (residue s).I = s.I ∧ (residue s).sp = s.sp ∧
    (residue s).stack = s.stack ∧ (residue s).key = s.key ∧ ((residue s).dt = s.dt ∨ (residue s).dt = ticked s.dt) ∧
    ((residue s).st = s.st ∨ (residue s).st = ticked s.st) := by
  obtain ⟨u, hu, hI, hsp, hstack, hkey, hdt, hst, -⟩ := residue_eq_endFaulted s
  rw [hu, ← hdt, ← hst]
  exact ⟨rfl, hI, hsp, hstack, hkey, timers_endFaulted u⟩

/-- After a failed fetch (R190). -/
theorem residue_of_failed_fetch (h : ∀ w, fetchWord s ≠ .ok w) :
    ((residue s).pc = s.pc ∨ (residue s).pc = s.pc + 2) ∧ (residue s).x = s.x ∧ (residue s).ram = s.ram ∧
      (residue s).fb = s.fb := by
  cases hw : fetchWord s with
  | ok w => exact absurd hw (h w)
  | error e =>
    obtain hr | hr := residue_of_fetchWord_error hw
    · rw [hr]; exact ⟨.inl rfl, rfl, rfl, rfl⟩
    · rw [hr]; exact ⟨.inr rfl, rfl, rfl, rfl⟩

/-- Settles O58: the answer by `hostStep_ok`, what every error leaves by `residue_frame`, and after a failed execution
each element by its own lemma on the advanced state. -/
theorem faultResidueBounds : Obligations.FaultResidueBounds := by
  refine ⟨fun s t => hostStep_of_next, fun s e h => ⟨_, _, hostStep_of_fault h, rfl⟩, fun s t r e hm h he => ?_⟩
  obtain ⟨-, hnone⟩ | ⟨e', hstep, rfl, he'⟩ := hostStep_ok h
  · cases hnone.symm.trans he
  obtain rfl : e' = e := Option.some.inj (he'.symm.trans he)
  obtain ⟨hmark, hI, hsp, hstack, hkey, hdt, hst⟩ := residue_frame s
  refine ⟨hstep, hmark, hI, hsp, hstack, hkey, hdt, hst, residue_of_failed_fetch, fun w hw => ?executed⟩
  obtain ⟨-, -, -, -, -, -, hpc, -⟩ := residueOf_frame (decode w) s.beginStep
  rw [residue_of_fetchWord_ok hw]
  refine ⟨hpc, fun q => reg_residueOf_of_not_writesReg, fun a ha => read_residueOf_of_not_storesTo (s := s.beginStep) hm ha,
    fb_residueOf_of_not_drw, fun X hX q _ => ?ldrx, fun X hX q hq => ?ldxr, fun X hX k d hd => ?ldb, fun X Y N hX => ?drw⟩
  case ldrx =>
    rw [hX]
    exact (reg_residueOf_ldrx X s.beginStep q).imp_right fun ⟨_, hram, hnew⟩ => ⟨Nat.le_of_lt_succ hram, hnew⟩
  case ldxr => rw [hX]; exact read_residueOf_ldxr (s := s.beginStep) hm hq
  case ldb => rw [hX]; exact read_residueOf_ldb (s := s.beginStep) hm hd
  case drw =>
    rw [hX]
    refine ⟨fun px hpx py hpy => ?pixel, reg_fifteen_residueOf_drw X Y N s.beginStep⟩
    case pixel =>
      rw [pixel_endFaulted]
      exact pixel_residueOf_drw (s := s.beginStep) hpx hpy

end Sys2Proof.Machine
end
